-- ==== Sys2Proof/Word.lean ====
section
/-! DEFINITION. The words the block moves: bytes and 32-bit payloads (rule R8). -/

namespace Sys2Proof

/-- A `u8` (rule R8): a raw byte, a board address, a command id, a checksum. -/
abbrev Byte := BitVec 8

/-- An `i32` payload (rules R8, R60), held as its 32 bits; `BitVec.toInt` reads it as two's complement. -/
abbrev Payload := BitVec 32

end Sys2Proof
end

