-- ==== Sys2Proof/Config.lean ====
section
/-! DEFINITION. The configuration `CFG` of rule R5 as plain data, the opaque application functions it selects, and the
reference configuration `CFG0` of rule R6 with the conventions of the test vectors. -/

namespace Sys2Proof

/-- `DispatchOutcome` (rule R21): `Ok` is the spec's own name for every outcome but `UnknownCommand`. -/
inductive DispatchOutcome where
  | ok
  | unknownCommand
deriving DecidableEq, Repr, Inhabited

/-- `BoardState` (rules R5, R23), an opaque type parameter of the spec. DESIGN CHOICE (log 2): a plain-data carrier, the two
fields of the spec's illustrations and a byte string in which an application keeps anything else. -/
structure BoardState where
  /-- The goal variable of the spec's example handlers. -/
  goal : Payload
  /-- The sensor position of the spec's example handlers. -/
  pos : Payload
  /-- Whatever else an application's board holds. -/
  rest : List Byte
deriving DecidableEq, Repr, Inhabited

/-- `Sensors` (rules R5, R167), an opaque type parameter of the spec, carried like `BoardState` (log 2). -/
structure Sensors where
  /-- The encoder reading of the spec's example. -/
  enc : Payload
  /-- The limit switch of the spec's example. -/
  limit : Bool
  /-- Whatever else an application's board senses. -/
  rest : List Byte
deriving DecidableEq, Repr, Inhabited

/-- What a handler returns (rule R144): response payload, outcome, new board state. -/
structure HandlerResult where
  resp : Payload
  outcome : DispatchOutcome
  board : BoardState
deriving DecidableEq, Repr, Inhabited

/-- The handler-select index of a dispatch-table entry (rule R13): one of the spec's illustrations, or any handler of an
application, by number. -/
inductive HandlerRef where
  /-- `H_SPIN`: records the goal and echoes the request. -/
  | spin
  /-- `H_ESTOP`: sets the goal to neutral. -/
  | estop
  /-- `H_READ`: returns a sensor value. -/
  | read
  /-- `H_PART` of vectors K12 and K13: recognises only id 10. -/
  | part
  /-- Application handler number `n`; its body is left open (log 3). -/
  | app (n : Nat)
deriving DecidableEq, Repr

/-- Which `control` function the configuration uses (rules R5, R167). -/
inductive ControlRef where
  /-- `C_EX` of the test vectors. -/
  | example0
  /-- Application control function number `n` (log 3). -/
  | app (n : Nat)
deriving DecidableEq, Repr

/-- Which `neutral` predicate the configuration supplies (rule R170). -/
inductive NeutralRef where
  /-- `bs.goal == 0`, the predicate of the test vectors. -/
  | goalZero
  /-- Application predicate number `n` (log 3). -/
  | app (n : Nat)
deriving DecidableEq, Repr

/-- The handlers of applications (rules R5, R144): total functions about which nothing is known. -/
opaque Config.appHandler : Nat → Byte → Payload → BoardState → HandlerResult

/-- The control functions of applications (rules R5, R167): total functions about which nothing is known. -/
opaque Config.appControl : Nat → BoardState → Sensors → BoardState

/-- The neutral predicates of applications (rule R170). -/
opaque Config.appNeutral : Nat → BoardState → Bool

/-- `CFG` (rule R5). The durations `T_WAIT` and `T_RX` have no value in the spec and no rule of the block reads them. -/
structure Config where
  /-- `START`, the opening sentinel. -/
  start : Byte
  /-- `END`, the closing sentinel. -/
  stop : Byte
  /-- `ESC`, the escape byte. -/
  esc : Byte
  /-- `MASK`, the fixed mask. -/
  mask : Byte
  /-- `MY_ADDR`, the board's own address. -/
  myAddr : Byte
  /-- `BS0`, the initial board state. -/
  bs0 : BoardState
  /-- `REG`, the registrations the boot code performs, in order. -/
  reg : List (Byte × HandlerRef)
  /-- `control`. -/
  control : ControlRef
  /-- `neutral`. -/
  neutral : NeutralRef
deriving DecidableEq, Repr

/-- `STD`, the standard registration list of the test vectors. -/
def Config.std : List (Byte × HandlerRef) := [(2, .spin), (3, .read), (255, .estop)]

/-- `CFG0` (rule R6) with `MY_ADDR = 1` and the board of the test vectors. DESIGN CHOICE (log 1). -/
def Config.cfg0 : Config where
  start := 0x7E
  stop := 0x7F
  esc := 0x7D
  mask := 0x20
  myAddr := 1
  bs0 := ⟨0, 0, []⟩
  reg := Config.std
  control := .example0
  neutral := .goalZero

end Sys2Proof
end

