-- ==== Sys2Proof/Machine/Operands.lean ====
section
/-! DEFINITION. Operand forms and byte order: the payload's four bytes (rules R41, R62), the special bytes (rules R8, R63)
and the stuffing of one body byte (rule R64). -/

namespace Sys2Proof.Machine

/-- The payload's bytes, most significant first (rule R41). -/
def payloadBytes (p : Payload) : List Byte :=
  [p.extractLsb' 24 8, p.extractLsb' 16 8, p.extractLsb' 8 8, p.extractLsb' 0 8]

/-- The payload reassembled by concatenation only (rule R62). -/
def payloadOf (d2 d3 d4 d5 : Byte) : Payload := d2 ++ d3 ++ d4 ++ d5

/-- `special(b)` (rule R8). -/
def special (cfg : Config) (b : Byte) : Bool := b == cfg.start || b == cfg.stop || b == cfg.esc

/-- One body byte as it travels (rule R64). -/
def stuff (cfg : Config) (v : Byte) : List Byte :=
  if special cfg v then [cfg.esc, v ^^^ cfg.mask] else [v]

end Sys2Proof.Machine
end

