-- ==== Sys2Proof/Syntax.lean ====
section
/-! DEFINITION. The instructions: the command frames of the opcode table (rules R61, R72, R79), one constructor per row. -/

namespace Sys2Proof

/-- A command frame. Every field of the frame is kept: `addr` is bits [63:56], `id` bits [55:48], `payload` bits [47:16],
`csum` bits [15:8] of the 72-bit pattern (rule R79). -/
inductive Instr where
  /-- `ESTOP` (rule R148): command id 255. -/
  | estop (addr : Byte) (payload : Payload) (csum : Byte)
  /-- `CMD` (rule R147): a bound id of 0 to 254. -/
  | cmd (addr id : Byte) (payload : Payload) (csum : Byte)
  /-- `UNKNOWN` (rule R149): an unbound id of 0 to 254. -/
  | unknown (addr id : Byte) (payload : Payload) (csum : Byte)
  /-- `SPIN0` (rules R72, R147): the source's example, id 2 on a board that binds it. -/
  | spin0 (addr : Byte) (payload : Payload) (csum : Byte)
deriving DecidableEq, Repr

/-- The board-address field. -/
def Instr.addr : Instr → Byte
  | .estop a _ _ => a
  | .cmd a _ _ _ => a
  | .unknown a _ _ _ => a
  | .spin0 a _ _ => a

/-- The command id: the opcode of the frame (rule R72). -/
def Instr.id : Instr → Byte
  | .estop _ _ _ => 255
  | .cmd _ c _ _ => c
  | .unknown _ c _ _ => c
  | .spin0 _ _ _ => 2

/-- The payload: the operand of the frame (rule R72). -/
def Instr.payload : Instr → Payload
  | .estop _ p _ => p
  | .cmd _ _ p _ => p
  | .unknown _ _ p _ => p
  | .spin0 _ p _ => p

/-- The checksum byte. -/
def Instr.csum : Instr → Byte
  | .estop _ _ k => k
  | .cmd _ _ _ k => k
  | .unknown _ _ _ k => k
  | .spin0 _ _ k => k

end Sys2Proof
end

