-- ==== Sys2Proof/WellFormed.lean ====
section
/-! DEFINITION. Which configurations (rule R6) and which instructions (rule R72) are well-formed. -/

namespace Sys2Proof

/-- `wf(CFG)` (rule R6): the three special bytes differ, no masked image of one is special, and the address is not 0. -/
abbrev Config.wf (cfg : Config) : Prop :=
  cfg.start ≠ cfg.stop ∧ cfg.start ≠ cfg.esc ∧ cfg.stop ≠ cfg.esc ∧
  Machine.special cfg (cfg.start ^^^ cfg.mask) = false ∧
  Machine.special cfg (cfg.stop ^^^ cfg.mask) = false ∧
  Machine.special cfg (cfg.esc ^^^ cfg.mask) = false ∧
  cfg.myAddr ≠ 0

/-- An instruction is well-formed on a board whose bound ids are `bound` when its class is the one rule R72 gives its id;
id 2 bound is `SPIN0`'s. No address, payload or checksum value is ill-formed (rules R73, R154). -/
abbrev Instr.WellFormed (bound : Byte → Bool) : Instr → Prop
  | .estop _ _ _ => True
  | .cmd _ c _ _ => c ≠ 255 ∧ c ≠ 2 ∧ bound c = true
  | .unknown _ c _ _ => c ≠ 255 ∧ bound c = false
  | .spin0 _ _ _ => bound 2 = true

end Sys2Proof
end

