-- ==== Sys2Proof/Decode.lean ====
section
/-! DEFINITION. Reading a frame (rules R61, R64, R71, R73) and, after it, writing one (rules R61 to R68). The streaming
decoder of the hardware is Machine/Receive.lean; here a whole frame is read at once. -/

namespace Sys2Proof

open Machine (payloadBytes payloadOf special stuff)

/-- Why a byte sequence is no frame, by name (rule R73). -/
inductive Reject where
  /-- The bytes end before the frame does. -/
  | truncated
  /-- The first byte is not `START`: the byte is noise (rule R101). -/
  | noStart
  /-- A plain `START` stands among the body bytes or after an `ESC` (rules R102, R106). -/
  | startInside
  /-- A plain `END` stands among the body bytes or after an `ESC` (rules R103, R107). -/
  | endInside
  /-- `ESC` is followed by a byte that is no masked image (rules R71, R122). -/
  | badEscape
  /-- The byte after the checksum is not `END` (rules R111, R112). -/
  | noEnd
  /-- Bytes follow the frame. -/
  | trailing
deriving DecidableEq, Repr

/-- The unstuffed fields of a frame between its sentinels (rule R61). -/
structure Fields where
  addr : Byte
  id : Byte
  payload : Payload
  csum : Byte
deriving DecidableEq, Repr

/-- Unstuff one body byte: the byte and what follows it (rules R64, R71). -/
def takeByte (cfg : Config) : List Byte → Except Reject (Byte × List Byte)
  | [] => .error .truncated
  | b :: rest =>
    if b = cfg.start then .error .startInside
    else if b = cfg.stop then .error .endInside
    else if b = cfg.esc then
      match rest with
      | [] => .error .truncated
      | m :: rest' =>
        if m = cfg.start then .error .startInside
        else if m = cfg.stop then .error .endInside
        else if special cfg (m ^^^ cfg.mask) then .ok (m ^^^ cfg.mask, rest')
        else .error .badEscape
    else .ok (b, rest)

/-- Unstuff `n` body bytes. -/
def takeBytes (cfg : Config) : Nat → List Byte → Except Reject (List Byte × List Byte)
  | 0, bs => .ok ([], bs)
  | n + 1, bs =>
    match takeByte cfg bs with
    | .error e => .error e
    | .ok (v, rest) =>
      match takeBytes cfg n rest with
      | .error e => .error e
      | .ok (vs, rest') => .ok (v :: vs, rest')

/-- The fields of a whole raw frame (rules R61, R62, R66, R67). The checksum byte is taken as it stands; comparing it is
the validator's work (rule R110). -/
def decodeFields (cfg : Config) : List Byte → Except Reject Fields
  | [] => .error .truncated
  | b :: rest =>
    if b = cfg.start then
      match takeBytes cfg 6 rest with
      | .error e => .error e
      | .ok ([a, c, p3, p2, p1, p0], k :: e :: tail) =>
        if e = cfg.stop then
          if tail = [] then .ok ⟨a, c, payloadOf p3 p2 p1 p0, k⟩ else .error .trailing
        else .error .noEnd
      | .ok _ => .error .truncated
    else .error .noStart

/-- The class of a frame on a board whose bound ids are `bound` (rule R72). -/
def classify (bound : Byte → Bool) (f : Fields) : Instr :=
  if f.id = 255 then .estop f.addr f.payload f.csum
  else if bound f.id then
    if f.id = 2 then .spin0 f.addr f.payload f.csum else .cmd f.addr f.id f.payload f.csum
  else .unknown f.addr f.id f.payload f.csum

/-- The instruction a raw frame holds, or why it holds none. -/
def decode (cfg : Config) (bound : Byte → Bool) (bytes : List Byte) : Except Reject Instr :=
  match decodeFields cfg bytes with
  | .error e => .error e
  | .ok f => .ok (classify bound f)

/-! ### The encoder -/

/-- `body(T)` (rule R62). -/
def body (a c : Byte) (p : Payload) : List Byte := a :: c :: payloadBytes p

/-- `checksum(T)` (rule R65): the XOR of the six unstuffed body bytes. -/
def checksum (a c : Byte) (p : Payload) : Byte := (body a c p).foldl (· ^^^ ·) 0

/-- The raw frame with the given checksum byte, valid or not: only the body is stuffed (rules R64, R66, R67). -/
def encodeFields (cfg : Config) (f : Fields) : List Byte :=
  cfg.start :: ((body f.addr f.id f.payload).flatMap (stuff cfg) ++ [f.csum, cfg.stop])

/-- `encode(a, c, p)` (rule R68). -/
def encode (cfg : Config) (a c : Byte) (p : Payload) : List Byte :=
  encodeFields cfg ⟨a, c, p, checksum a c p⟩

/-- The fields an instruction writes into its frame. -/
def Instr.fields (i : Instr) : Fields := ⟨i.addr, i.id, i.payload, i.csum⟩

/-- The raw frame of an instruction. -/
def encodeInstr (cfg : Config) (i : Instr) : List Byte := encodeFields cfg i.fields

/-! ### The opcode table's words -/

/-- The ids a registration list binds (rule R5). -/
def boundIn (reg : List (Byte × HandlerRef)) (c : Byte) : Bool := reg.any fun r => r.1 == c

/-- The nine unstuffed bytes of a table word, first byte most significant (rules R61, R79). -/
def tableBytes (nbits w : Nat) : List Byte :=
  let v := BitVec.ofNat 72 (w % 2 ^ nbits)
  [v.extractLsb' 64 8, v.extractLsb' 56 8, v.extractLsb' 48 8, v.extractLsb' 40 8, v.extractLsb' 32 8,
    v.extractLsb' 24 8, v.extractLsb' 16 8, v.extractLsb' 8 8, v.extractLsb' 0 8]

/-- The same word as it travels: the six body bytes stuffed, the sentinels and the checksum raw (rules R64, R66, R79). -/
def tableWire (cfg : Config) (nbits w : Nat) : List Byte :=
  match tableBytes nbits w with
  | [s, a, c, p3, p2, p1, p0, k, e] =>
    s :: ([a, c, p3, p2, p1, p0].flatMap (stuff cfg) ++ [k, e])
  | _ => []

/-- The instruction of a table word under `CFG0` on the board that registers `STD` (log 4): `CMD` and `UNKNOWN` share
their bits and only the board's registrations tell them apart. -/
def decodeTableWord (nbits w : Nat) : Option Instr :=
  if nbits ≤ 72 then
    match decode Config.cfg0 (boundIn Config.cfg0.reg) (tableWire Config.cfg0 nbits w) with
    | .ok i => some i
    | .error _ => none
  else none

end Sys2Proof
end

