-- ==== Sys2Proof/Machine/State.lean ====
section
/-! DEFINITION. The state of one block (rules R10 to R23), its events and outputs (rules R25 to R29), why a step stops, and
the reset state (rules R33, R230). -/

namespace Sys2Proof.Machine

/-- `ctl` (rule R11). -/
inductive Ctl where
  /-- After reset, before `Start`. -/
  | registering
  /-- The decoder consumes received bytes. -/
  | waitingForFrame
  /-- A request was accepted; its handler has not yet run. -/
  | dispatching
  /-- The reply is being sent byte by byte. -/
  | replying
  /-- Start-up was aborted. -/
  | halted
deriving DecidableEq, Repr

/-- What `boot_err` records (rule R12); no error is `Option.none`. -/
inductive BootError where
  | duplicateCommand
  | missingSafeHandler
deriving DecidableEq, Repr

/-- `rx_state` (rule R15). -/
inductive RxState where
  | idle
  | inFrame
  | escaped
  | expectChecksum
deriving DecidableEq, Repr

/-- `rx_buf` (rule R17): six bytes in arrival order. -/
structure RxBuf where
  b0 : Byte
  b1 : Byte
  b2 : Byte
  b3 : Byte
  b4 : Byte
  b5 : Byte
deriving DecidableEq, Repr

/-- The receive registers (rules R15 to R19). -/
structure Rx where
  /-- `rx_state` (rule R15). -/
  state : RxState
  /-- `rx_cnt`, 0 to 7 (rule R16). -/
  cnt : Nat
  /-- `rx_buf` (rule R17). -/
  buf : RxBuf
  /-- `rx_xor` (rule R18). -/
  xor : Byte
  /-- `rx_csum` (rule R19). -/
  csum : Byte
deriving DecidableEq, Repr

/-- A transaction record (rule R60). -/
structure Transaction where
  addr : Byte
  cmd : Byte
  payload : Payload
deriving DecidableEq, Repr

/-- `RxResult` (rule R25). -/
inductive RxResult where
  | needMore
  | frameOk (t : Transaction)
  | frameCorrupt
  | frameTooShort
deriving DecidableEq, Repr

/-- How the decoder gives a frame up (rules R201, R202). -/
inductive RxError where
  /-- `FrameCorrupt`: to `Idle`. -/
  | corrupt
  /-- `FrameTooShort`: to `Idle`. -/
  | tooShort
  /-- `FrameTooShort` raised by a `START`, which is at once the first byte of a new frame. -/
  | cutByStart
deriving DecidableEq, Repr

/-- The block's errors (rule R200), the two of the master's `call` apart. -/
inductive BlockError where
  /-- `FrameCorrupt` or `FrameTooShort` (rules R201, R202). -/
  | transport (e : RxError)
  /-- `DuplicateCommand` or `MissingSafeHandler` (rules R203, R204). -/
  | boot (e : BootError)
  /-- `UnknownCommand` (rule R205). -/
  | unknownCommand
deriving DecidableEq, Repr

/-- The dispatch table (rule R13) as its bound rows, ids strictly rising (log 5). -/
abbrev DispatchTable := List (Byte × HandlerRef)

/-- The events of rules R28 and R7: six inputs and the block's two internal steps. -/
inductive Event where
  | reset
  | register (id : Byte) (h : HandlerRef)
  | start
  | rxByte (b : Byte)
  | rxTimeout
  | controlStep (s : Sensors)
  | dispatch
  | txByte
deriving DecidableEq, Repr

/-- What one step puts out (rules R25, R26, R29): `none` where it puts out nothing. -/
structure Output where
  /-- The `RxResult` of the step. -/
  rx : Option RxResult
  /-- The byte handed to the serial transmitter. -/
  tx : Option Byte
  /-- The `DispatchOutcome` of the step. -/
  outcome : Option DispatchOutcome
deriving DecidableEq, Repr

/-- The state: the tuple of rule R10 and three fields of the model's own, `cfg`, `pending` and `out` (logs 6, 7, 8). -/
structure State where
  /-- The configuration the model takes as an argument (rule R5); no step writes it. -/
  cfg : Config
  /-- `ctl` (rule R11). -/
  ctl : Ctl
  /-- `boot_err` (rule R12). -/
  bootErr : Option BootError
  /-- `DT` (rule R13). -/
  dt : DispatchTable
  /-- `rx_state`, `rx_cnt`, `rx_buf`, `rx_xor`, `rx_csum` (rules R15 to R19). -/
  rx : Rx
  /-- `req_cmd` (rule R20). -/
  reqCmd : Byte
  /-- `req_payload` (rule R20). -/
  reqPayload : Payload
  /-- `resp_payload` (rule R21). -/
  respPayload : Payload
  /-- `last_outcome` (rule R21). -/
  lastOutcome : DispatchOutcome
  /-- `tx_buf` (rule R22). -/
  txBuf : List Byte
  /-- `tx_len` (rule R22). -/
  txLen : Nat
  /-- `tx_idx` (rule R22). -/
  txIdx : Nat
  /-- `board` (rule R23). -/
  board : BoardState
  /-- The events still to come, in the order the agents take them; every choice of the environment (rule R7) is here. -/
  pending : List Event
  /-- The outputs of the step that led here; no rule reads them. -/
  out : Output
deriving DecidableEq, Repr

/-- Why a step stops with a fault. Both are safe: the spec derives that neither case arises (rule R32), and the model
stops where the spec's operation has no meaning. -/
inductive Fault where
  /-- Raised by `RxByte` where `rx_cnt` has no legal value for `rx_state` (rules R16, R113: `take_body` requires
  `rx_cnt <= 5`). Safe. -/
  | rxCountOutOfRange
  /-- Raised by `TxByte` where `tx_buf` has no byte at `tx_idx` (rule R22: `0 <= tx_idx < tx_len`). Safe. -/
  | txIndexOutOfRange
deriving DecidableEq, Repr

/-- Why a step is refused. -/
inductive Refusal where
  /-- Raised by an arm of `exec` that has no meaning yet; no arm is left so. Safe. -/
  | notModelled (mnemonic : String)
  /-- Raised by `step` when the configuration is not well-formed: "a model refuses a configuration that is not
  well-formed" (rule R6). Safe. -/
  | illFormedConfig
deriving DecidableEq, Repr

/-- No output. -/
def Output.silent : Output := ⟨none, none, none⟩

/-- The receive registers at reset (rule R33). -/
def Rx.reset : Rx := ⟨.idle, 0, ⟨0, 0, 0, 0, 0, 0⟩, 0, 0⟩

/-- The block of configuration `cfg` right after `Reset` (rules R33, R230), with the given events still to come. -/
def State.resetOf (cfg : Config) (pending : List Event) : State where
  cfg := cfg
  ctl := .registering
  bootErr := none
  dt := []
  rx := Rx.reset
  reqCmd := 0
  reqPayload := 0
  respPayload := 0
  lastOutcome := .ok
  txBuf := []
  txLen := 0
  txIdx := 0
  board := cfg.bs0
  pending := pending
  out := Output.silent

/-- The machine right after reset, under the reference configuration and with no event placed (logs 1, 9). -/
def State.reset : State := State.resetOf Config.cfg0 []

end Sys2Proof.Machine
end

