-- ==== Sys2Proof/Machine/Flags.lean ====
section
/-! DEFINITION. Status outputs, the block's only flags (rules R25, R26), and the suggested numeric codes of rules R30 and
R200, which are not normative and which no rule reads (log 12). -/

namespace Sys2Proof.Machine

/-- The output of a step whose `RxResult` is `r` (rule R25). -/
def Output.ofRx (r : RxResult) : Output := ⟨some r, none, none⟩

/-- The output of a step that emits `b` (rule R29). -/
def Output.ofTx (b : Byte) : Output := ⟨none, some b, none⟩

/-- The output of a `Dispatch` step (rule R26). -/
def Output.ofOutcome (o : DispatchOutcome) : Output := ⟨none, none, some o⟩

/-- The `RxResult` by which a transport error is reported (rules R201, R202, R207). -/
def RxError.result : RxError → RxResult
  | .corrupt => .frameCorrupt
  | .tooShort => .frameTooShort
  | .cutByStart => .frameTooShort

/-- Suggested code of `ctl` (rule R30). -/
def Ctl.code : Ctl → Nat
  | .registering => 0
  | .waitingForFrame => 1
  | .dispatching => 2
  | .replying => 3
  | .halted => 4

/-- Suggested code of `rx_state` (rule R30). -/
def RxState.code : RxState → Nat
  | .idle => 0
  | .inFrame => 1
  | .escaped => 2
  | .expectChecksum => 3

/-- Suggested code of `RxResult` (rules R30, R200). -/
def RxResult.code : RxResult → Nat
  | .needMore => 0
  | .frameOk _ => 1
  | .frameCorrupt => 2
  | .frameTooShort => 3

/-- Suggested code of `DispatchOutcome` (rules R30, R200). -/
def outcomeCode : DispatchOutcome → Nat
  | .ok => 0
  | .unknownCommand => 1

/-- Suggested code of `boot_err` (rules R30, R200). -/
def bootErrCode : Option BootError → Nat
  | none => 0
  | some .duplicateCommand => 1
  | some .missingSafeHandler => 2

end Sys2Proof.Machine
end

