-- ==== Sys2Proof/Machine/Handlers.lean ====
section
/-! DEFINITION. The handlers a table entry selects (rules R144, R150), the control function (rule R167) and the neutral
predicate (rule R170) a configuration selects. The named ones are the spec's own illustrations. -/

namespace Sys2Proof.Machine

/-- The selected handler: `(cmd, req, bs) -> (resp, outcome, bs')`, total (rules R144, R145). -/
def HandlerRef.run : HandlerRef → Byte → Payload → BoardState → HandlerResult
  | .spin, _, req, bs => ⟨req, .ok, { bs with goal := req }⟩
  | .estop, _, _, bs => ⟨0, .ok, { bs with goal := 0 }⟩
  | .read, _, _, bs => ⟨bs.pos, .ok, bs⟩
  | .part, cmd, req, bs => if cmd = 10 then ⟨req + 1, .ok, bs⟩ else ⟨77, .unknownCommand, bs⟩
  | .app n, cmd, req, bs => Config.appHandler n cmd req bs

/-- `control(bs, s)` (rule R167); `example0` is `C_EX` of the test vectors. -/
def ControlRef.run : ControlRef → BoardState → Sensors → BoardState
  | .example0, bs, s => { bs with goal := if s.limit then 0 else bs.goal, pos := s.enc }
  | .app n, bs, s => Config.appControl n bs s

/-- `neutral(bs)` (rule R170). -/
def NeutralRef.holds : NeutralRef → BoardState → Bool
  | .goalZero, bs => bs.goal == 0
  | .app n, bs => Config.appNeutral n bs

end Sys2Proof.Machine
end

