-- ==== Sys2Proof/Machine/Table.lean ====
section
/-! DEFINITION. The dispatch table `DT` (rules R13, R140, R150): lookup by the full 8-bit id, and binding. -/

namespace Sys2Proof.Machine

/-- `DT[id]` (rule R13). -/
def DispatchTable.find : DispatchTable → Byte → Option HandlerRef
  | [], _ => none
  | (k, h) :: rest, id => if k = id then some h else DispatchTable.find rest id

/-- `DT[id] <- Some h` (rule R140), the rows kept in rising order of ids: "ordered-irrelevant mapping". -/
def DispatchTable.bind (id : Byte) (h : HandlerRef) : DispatchTable → DispatchTable
  | [] => [(id, h)]
  | (k, g) :: rest =>
    if id.toNat < k.toNat then (id, h) :: (k, g) :: rest
    else if id = k then (k, h) :: rest
    else (k, g) :: DispatchTable.bind id h rest

/-- The canonical form: ids strictly rising, so that equal tables are equal data. -/
abbrev DispatchTable.wf (t : DispatchTable) : Prop := (t.map fun r => r.1.toNat).Pairwise (· < ·)

/-- Whether `DT[id]` is bound. -/
def DispatchTable.bound (t : DispatchTable) (id : Byte) : Bool := (DispatchTable.find t id).isSome

/-- The table in which every id of a registration list has its first binding. Of a list with pairwise different ids it is the
table the boot sequence leaves (rules R140, R233). Of a list with an id that occurs twice, at which the boot sequence ends in
`Halted` with the earlier bindings alone (rules R141, R233), it holds the later ids too: DESIGN CHOICE (log 20), for placing a
table word only. -/
def DispatchTable.ofReg (reg : List (Byte × HandlerRef)) : DispatchTable :=
  reg.foldl (fun t r => if DispatchTable.bound t r.1 then t else DispatchTable.bind r.1 r.2 t) []

end Sys2Proof.Machine
end

