-- ==== Sys2Proof/Machine/Ops.lean ====
section
/-! DEFINITION. The named operations on the registers, and raising an error as one shared operation. An error saves nothing
and has no return operation (rule R210): its effect ends with the step that raises it. -/

namespace Sys2Proof.Machine

/-! ### Receive registers -/

/-- `frame_start` (rule R113): `rx_buf` and `rx_csum` keep their old values. -/
def Rx.frameStart (rx : Rx) : Rx := { rx with state := .inFrame, cnt := 0, xor := 0 }

/-- Raise a transport error in the decoder (rules R201, R202): the frame is given up, and a `START` begins a new one. -/
def Rx.raise (e : RxError) (rx : Rx) : Rx × RxResult :=
  match e with
  | .corrupt => ({ rx with state := .idle }, e.result)
  | .tooShort => ({ rx with state := .idle }, e.result)
  | .cutByStart => (rx.frameStart, e.result)

/-- `rx_buf[i] <- v` (rule R17); there is no element past the sixth. -/
def RxBuf.put (buf : RxBuf) (i : Nat) (v : Byte) : RxBuf :=
  match i with
  | 0 => { buf with b0 := v }
  | 1 => { buf with b1 := v }
  | 2 => { buf with b2 := v }
  | 3 => { buf with b3 := v }
  | 4 => { buf with b4 := v }
  | 5 => { buf with b5 := v }
  | _ => buf

/-- The six bytes of `rx_buf` in arrival order. -/
def RxBuf.toList (buf : RxBuf) : List Byte := [buf.b0, buf.b1, buf.b2, buf.b3, buf.b4, buf.b5]

/-- The six body bytes of a record as `rx_buf` holds them (rules R17, R62). -/
def RxBuf.ofTransaction (t : Transaction) : RxBuf :=
  ⟨t.addr, t.cmd, t.payload.extractLsb' 24 8, t.payload.extractLsb' 16 8, t.payload.extractLsb' 8 8,
    t.payload.extractLsb' 0 8⟩

/-- `take_body(v)` (rule R113), which requires `rx_cnt <= 5`. -/
def Rx.takeBody (rx : Rx) (v : Byte) : Option Rx :=
  if rx.cnt ≤ 5 then
    some { rx with
      buf := rx.buf.put rx.cnt v
      xor := rx.xor ^^^ v
      cnt := rx.cnt + 1
      state := if rx.cnt + 1 = 6 then .expectChecksum else .inFrame }
  else none

/-- The transaction record the body bytes spell (rules R62, R110). -/
def Rx.record (rx : Rx) : Transaction :=
  ⟨rx.buf.b0, rx.buf.b1, payloadOf rx.buf.b2 rx.buf.b3 rx.buf.b4 rx.buf.b5⟩

/-- Validation at `END` (rule R110) of record `t` that came with checksum byte `k`. -/
def Rx.finish (rx : Rx) (t : Transaction) (k : Byte) : Rx × RxResult :=
  if k = rx.xor then ({ rx with state := .idle }, .frameOk t) else rx.raise .corrupt

/-! ### The block -/

/-- The decoder's registers and result after a step it consumed (rules R25, R100). -/
def State.takeRx (s : State) (r : Rx × RxResult) : State := { s with rx := r.1, out := Output.ofRx r.2 }

/-- Acceptance (rule R161): the request registers are loaded and `ctl` becomes `Dispatching`. -/
def State.accept (s : State) (t : Transaction) : State :=
  { s with reqCmd := t.cmd, reqPayload := t.payload, ctl := .dispatching }

/-- A decoder step with its hand-off: a valid frame for this board is accepted (rule R161), one for another board has no
further effect (rule R162), nor has any other result (rule R207). -/
def State.handOff (s : State) (r : Rx × RxResult) : State :=
  match r.2 with
  | .frameOk t => if t.addr = s.cfg.myAddr then (s.takeRx r).accept t else s.takeRx r
  | _ => s.takeRx r

/-- Start-up is aborted (rules R203, R204): `DT` stays as it is. -/
def State.abort (s : State) (e : BootError) : State := { s with bootErr := some e, ctl := .halted }

/-- What a handler's result writes (rules R146, R151): passed through unchanged. -/
def State.respond (s : State) (r : HandlerResult) : State :=
  { s with respPayload := r.resp, lastOutcome := r.outcome, board := r.board, out := Output.ofOutcome r.outcome }

/-- Raise an error (rule R200): the one operation behind every `raise` of the spec, and each error's whole effect. -/
def raise (e : BlockError) (s : State) : State :=
  match e with
  | .transport e => s.takeRx (s.rx.raise e)
  | .boot e => s.abort e
  | .unknownCommand => s.respond ⟨0, .unknownCommand, s.board⟩

/-- Loading the transmit registers with the reply to command `c` (rules R74, R131) and the edge to `Replying` (R163). -/
def State.loadReply (s : State) (c : Byte) : State :=
  let frame := encode s.cfg s.cfg.myAddr c s.respPayload
  { s with txBuf := frame, txLen := frame.length, txIdx := 0, ctl := .replying }

/-- The multiplexer (rules R146, R150): the handler `DT[c]` selects, or the default of rule R149, then the reply. -/
def State.dispatch (s : State) (c : Byte) (p : Payload) : State :=
  match DispatchTable.find s.dt c with
  | some h => (s.respond (HandlerRef.run h c p s.board)).loadReply c
  | none => (raise .unknownCommand s).loadReply c

/-- One more event is taken: it leaves the queue, and the outputs of the step before are gone (logs 7, 8). -/
def State.begin (s : State) : State := { s with pending := s.pending.tail, out := Output.silent }

end Sys2Proof.Machine
end

