-- ==== Sys2Proof/Machine/Commands.lean ====
section
/-! DEFINITION. The four command frames (rules R147 to R149, R72). A frame takes effect in two steps of the block (log 10):
in `WaitingForFrame`, at its `END`, it is validated, filtered by address and accepted (rules R110, R161, R162); in
`Dispatching` its handler runs and the reply is loaded (rule R146). In the other states nothing of it is consumed (R117). -/

namespace Sys2Proof.Machine

/-- A frame that is complete at its `END` byte (rules R110, R161, R162). -/
def State.receive (s : State) (a c : Byte) (p : Payload) (k : Byte) : State := s.handOff (s.rx.finish ⟨a, c, p⟩ k)

/-- The step a frame takes in the control state it meets. -/
def State.command (s : State) (a c : Byte) (p : Payload) (k : Byte) : State :=
  match s.ctl with
  | .waitingForFrame => s.receive a c p k
  | .dispatching => s.dispatch c p
  | .registering => s
  | .replying => s
  | .halted => s

/-- `ESTOP` (rule R148): id 255, answered like any other and with no priority over a transaction in progress. -/
def execEstop (addr : Byte) (payload : Payload) (csum : Byte) (s : State) : Host.Outcome State Fault Refusal :=
  .next (s.command addr 255 payload csum)

/-- `CMD` (rule R147): the handler bound to the id runs. -/
def execCmd (addr id : Byte) (payload : Payload) (csum : Byte) (s : State) : Host.Outcome State Fault Refusal :=
  .next (s.command addr id payload csum)

/-- `UNKNOWN` (rule R149): the id is unbound, so the multiplexer's default answers 0. -/
def execUnknown (addr id : Byte) (payload : Payload) (csum : Byte) (s : State) : Host.Outcome State Fault Refusal :=
  .next (s.command addr id payload csum)

/-- `SPIN0` (rules R72, R147): the source's example, a `CMD` with id 2. -/
def execSpin0 (addr : Byte) (payload : Payload) (csum : Byte) (s : State) : Host.Outcome State Fault Refusal :=
  .next (s.command addr 2 payload csum)

end Sys2Proof.Machine
end

