-- ==== Sys2Proof/Machine/Dispatch.lean ====
section
/-! DEFINITION. The meaning of each instruction, one arm per row of the opcode table. -/

namespace Sys2Proof.Machine

def exec (i : Instr) (s : State) : Host.Outcome State Fault Refusal :=
  match i with
  | .estop addr payload csum => Sys2Proof.Machine.execEstop addr payload csum s
  | .cmd addr id payload csum => Sys2Proof.Machine.execCmd addr id payload csum s
  | .unknown addr id payload csum => Sys2Proof.Machine.execUnknown addr id payload csum s
  | .spin0 addr payload csum => Sys2Proof.Machine.execSpin0 addr payload csum s

end Sys2Proof.Machine
end

