-- ==== Sys2Proof/Machine/Boot.lean ====
section
/-! DEFINITION. Reset and the boot phase: `Reset` (rule R230), `Register` (rules R140 to R142), `Start` (rule R143), and the
boot sequence (rule R233). -/

namespace Sys2Proof.Machine

/-- `Reset` (rule R230): every piece of state at its reset value; the configuration, and the events to come, stay. -/
def resetBlock (s : State) : State := State.resetOf s.cfg s.pending

/-- `Register(id, h)` (rules R140 to R142). -/
def register (id : Byte) (h : HandlerRef) (s : State) : State :=
  if s.ctl = .registering then
    match DispatchTable.find s.dt id with
    | none => { s with dt := DispatchTable.bind id h s.dt }
    | some _ => raise (.boot .duplicateCommand) s
  else s

/-- `Start` (rule R143). -/
def start (s : State) : State :=
  if s.ctl = .registering then
    match DispatchTable.find s.dt 255 with
    | some _ => { s with ctl := .waitingForFrame }
    | none => raise (.boot .missingSafeHandler) s
  else s

/-- The boot sequence the board's boot code issues (rule R233). -/
def bootEvents (reg : List (Byte × HandlerRef)) : List Event :=
  .reset :: (reg.map (fun r => Event.register r.1 r.2) ++ [.start])

end Sys2Proof.Machine
end

