-- ==== Sys2Proof/Machine/Control.lean ====
section
/-! DEFINITION. The control step, the neighbour that shares `board` with the handlers (rules R167, R168). -/

namespace Sys2Proof.Machine

/-- `ctl` is one of the three running states (rules R167, R212). -/
def Ctl.running : Ctl → Bool
  | .registering => false
  | .waitingForFrame => true
  | .dispatching => true
  | .replying => true
  | .halted => false

/-- `ControlStep(s)` (rule R167): enabled in the running states, and it writes `board` alone. -/
def controlStep (sensors : Sensors) (s : State) : State :=
  if s.ctl.running then { s with board := ControlRef.run s.cfg.control s.board sensors } else s

end Sys2Proof.Machine
end

