-- ==== Sys2Proof/Machine/Receive.lean ====
section
/-! DEFINITION. The frame detector and validator (rules R100 to R122): `rx_step`, and the events `RxByte` and
`RxTimeout`. -/

namespace Sys2Proof.Machine

/-- `rx_step` in `InFrame` (rules R102 to R105). -/
def Rx.stepInFrame (cfg : Config) (rx : Rx) (b : Byte) : Option (Rx × RxResult) :=
  if b = cfg.start then some (rx.raise .cutByStart)
  else if b = cfg.stop then some (rx.raise .tooShort)
  else if b = cfg.esc then some ({ rx with state := .escaped }, .needMore)
  else (rx.takeBody b).map fun r => (r, .needMore)

/-- `rx_step` in `Escaped` (rules R106 to R108, R122). -/
def Rx.stepEscaped (cfg : Config) (rx : Rx) (b : Byte) : Option (Rx × RxResult) :=
  if b = cfg.start then some (rx.raise .cutByStart)
  else if b = cfg.stop then some (rx.raise .tooShort)
  else if special cfg (b ^^^ cfg.mask) then (rx.takeBody (b ^^^ cfg.mask)).map fun r => (r, .needMore)
  else some (rx.raise .corrupt)

/-- `rx_step` in `ExpectChecksum` (rules R109 to R112); the state has only the counts 6 and 7 (rule R16). -/
def Rx.stepChecksum (cfg : Config) (rx : Rx) (b : Byte) : Option (Rx × RxResult) :=
  if rx.cnt = 6 then some ({ rx with csum := b, cnt := 7 }, .needMore)
  else if rx.cnt = 7 then
    if b = cfg.stop then some (rx.finish rx.record rx.csum)
    else if b = cfg.start then some (rx.raise .cutByStart)
    else some (rx.raise .tooShort)
  else none

/-- `rx_step` (rule R100); `none` where the counter has no legal value for the state. -/
def Rx.step (cfg : Config) (rx : Rx) (b : Byte) : Option (Rx × RxResult) :=
  match rx.state with
  | .idle => some (if b = cfg.start then rx.frameStart else rx, .needMore)
  | .inFrame => rx.stepInFrame cfg b
  | .escaped => rx.stepEscaped cfg b
  | .expectChecksum => rx.stepChecksum cfg b

/-- A run of the decoder alone over a list of bytes: the registers after it and the result of every byte. -/
def Rx.run (cfg : Config) (rx : Rx) : List Byte → Option (Rx × List RxResult)
  | [] => some (rx, [])
  | b :: bs =>
    match rx.step cfg b with
    | none => none
    | some (rx', r) => (Rx.run cfg rx' bs).map fun q => (q.1, r :: q.2)

/-- `RxTimeout` at a decoder alone (rule R114): a frame in progress is given up, otherwise nothing happens. -/
def Rx.timeout (rx : Rx) : Rx × Option RxResult :=
  if rx.state = .idle then (rx, none) else ((rx.raise .tooShort).1, some (rx.raise .tooShort).2)

/-- `RxByte(b)` (rules R100, R117): consumed in `WaitingForFrame`, discarded elsewhere. -/
def rxByte (b : Byte) (s : State) : Host.Outcome State Fault Refusal :=
  if s.ctl = .waitingForFrame then
    match s.rx.step s.cfg b with
    | some r => .next (s.handOff r)
    | none => .fault .rxCountOutOfRange
  else .next s

/-- `RxTimeout` (rule R114): gives a frame in progress up, otherwise ignored. -/
def rxTimeout (s : State) : State :=
  if s.ctl = .waitingForFrame ∧ s.rx.state ≠ .idle then raise (.transport .tooShort) s else s

end Sys2Proof.Machine
end

