-- ==== Sys2Proof/Machine/Transmit.lean ====
section
/-! DEFINITION. The reply frame encoder's sequential part: `TxByte` (rules R132 to R134). -/

namespace Sys2Proof.Machine

/-- Byte `b` leaves the block (rules R132, R133); the last one returns `ctl` to `WaitingForFrame`. -/
def State.sendByte (s : State) (b : Byte) : State :=
  { s with
    ctl := if s.txIdx + 1 = s.txLen then .waitingForFrame else s.ctl
    txIdx := s.txIdx + 1
    out := Output.ofTx b }

/-- `TxByte` (rule R132), enabled exactly in `Replying`. -/
def txByte (s : State) : Host.Outcome State Fault Refusal :=
  if s.ctl = .replying then
    match s.txBuf[s.txIdx]? with
    | some b => .next (s.sendByte b)
    | none => .fault .txIndexOutOfRange
  else .next s

end Sys2Proof.Machine
end

