-- ==== Sys2Proof/Machine/Fetch.lean ====
section
/-! DEFINITION. Which event comes next (rules R7, R168), which command frame it puts into effect, and placing a table word
where the block finds it. -/

namespace Sys2Proof.Machine

/-- The next event: the head of the queue, which is a schedule of all the agents, internal events included (rules R7, R168,
log 7), or, with the queue empty, the block's own internal step if one is enabled; `none` while the block waits (rule R215).
The eager schedule of rule R245 places the inputs one by one (`State.eagerRun`). -/
def State.nextEvent (s : State) : Option Event :=
  match s.pending with
  | e :: _ => some e
  | [] =>
    match s.ctl with
    | .dispatching => some .dispatch
    | .replying => some .txByte
    | .registering => none
    | .waitingForFrame => none
    | .halted => none

/-- The frame the receive registers hold when its checksum byte has been latched (rules R16, R17, R19). -/
def State.receivedFields (s : State) : Fields :=
  ⟨s.rx.record.addr, s.rx.record.cmd, s.rx.record.payload, s.rx.csum⟩

/-- The accepted request as a frame: its address equals `MY_ADDR` and its checksum matched (rules R20, R161). -/
def State.requestFields (s : State) : Fields :=
  ⟨s.cfg.myAddr, s.reqCmd, s.reqPayload, checksum s.cfg.myAddr s.reqCmd s.reqPayload⟩

/-- The frame that event `e` puts into effect: the received one at its `END` byte (rule R110), the accepted one at
`Dispatch` (rule R146), otherwise none. -/
def State.frameAt (s : State) (e : Event) : Option Fields :=
  match e with
  | .rxByte b =>
    if s.ctl = .waitingForFrame ∧ s.rx.state = .expectChecksum ∧ s.rx.cnt = 7 ∧ b = s.cfg.stop then
      some s.receivedFields
    else none
  | .dispatch => if s.ctl = .dispatching then some s.requestFields else none
  | .reset => none
  | .register _ _ => none
  | .start => none
  | .rxTimeout => none
  | .controlStep _ => none
  | .txByte => none

/-- The instruction that event `e` puts into effect; the dispatch table tells `CMD` from `UNKNOWN` (rule R72). -/
def State.fetch (s : State) (e : Event) : Option Instr :=
  (s.frameAt e).map (classify (DispatchTable.bound s.dt))

/-- An event that puts no frame into effect. -/
def State.run (s : State) (e : Event) : Host.Outcome State Fault Refusal :=
  match e with
  | .reset => .next (resetBlock s)
  | .register id h => .next (register id h s)
  | .start => .next (start s)
  | .rxByte b => rxByte b s
  | .rxTimeout => .next (rxTimeout s)
  | .controlStep sensors => .next (controlStep sensors s)
  | .dispatch => .next s
  | .txByte => txByte s

/-- The block of `s` with its registration list bound, in `WaitingForFrame`, that has taken all of frame `f` but the `END` byte,
which comes next (rules R109, R110). Where the list has no id twice and has 255, this is a booted block (rule R233). Any other
list is allowed too (rule R6 item 4), and its boot sequence ends in `Halted`: that the frame is placed in `WaitingForFrame` all
the same is a DESIGN CHOICE (log 20). -/
def State.beforeEnd (s : State) (f : Fields) : State :=
  { s with
    ctl := .waitingForFrame
    bootErr := none
    dt := DispatchTable.ofReg s.cfg.reg
    rx := ⟨.expectChecksum, 7, RxBuf.ofTransaction ⟨f.addr, f.id, f.payload⟩, checksum f.addr f.id f.payload, f.csum⟩
    pending := .rxByte s.cfg.stop :: s.pending }

/-- The block of `s` right before the step in which frame `f` takes its effect (log 10): a frame it accepts stands in
`Dispatching`; of any other the `END` byte, at which it is turned away, comes next. So it is with every registration list
(log 20). -/
def State.loadFrame (s : State) (f : Fields) : State :=
  let t := s.beforeEnd f
  let u := t.receive f.addr f.id f.payload f.csum
  if u.ctl = .dispatching then { u with pending := .dispatch :: s.pending, out := s.out } else t

/-- The bytes of no frame: the block, its registration list bound, receives them one by one in `WaitingForFrame` (rule R101).
That it stands there also with a list whose boot sequence ends in `Halted` (rule R6 item 4, rule R233) is a DESIGN CHOICE
(log 20). -/
def State.loadBytes (s : State) (bytes : List Byte) : State :=
  { s with
    ctl := .waitingForFrame
    bootErr := none
    dt := DispatchTable.ofReg s.cfg.reg
    rx := Rx.reset
    pending := bytes.map Event.rxByte ++ s.pending }

end Sys2Proof.Machine
end

