-- ==== Sys2Proof/Machine/Step.lean ====
section
/-! DEFINITION. One step of the block: one event, atomically (rule R31). -/

namespace Sys2Proof.Machine

/-- Event `e` at a state from which it has been taken: a frame it puts into effect is executed. -/
def stepEvent (e : Event) (s : State) : Host.Outcome State Fault Refusal :=
  match s.fetch e with
  | some i => exec i s
  | none => s.run e

/-- One step: the next event, or none, in which case the block does nothing (rule R215). A configuration that is not
well-formed is refused (rule R6). -/
def step (s : State) : Host.Outcome State Fault Refusal :=
  if s.cfg.wf then
    match s.nextEvent with
    | some e => stepEvent e s.begin
    | none => .next s.begin
  else .refused .illFormedConfig

/-- `s` with the frame of a table word placed so that the very next step puts it into effect (logs 9, 10, 16), whatever the
registration list (log 20). -/
def State.withFetchWord (s : State) (nbits w : Nat) : State :=
  match decodeFields s.cfg (tableWire s.cfg nbits w) with
  | .ok f => s.loadFrame f
  | .error _ => s.loadBytes (tableWire s.cfg nbits w)

end Sys2Proof.Machine
end

