-- ==== Sys2Proof/Machine/Client.lean ====
section
/-! DEFINITION. The master's Bus Client as the block's environment (rules R77, R136, R180 to R190). It is no part of the
block (rule R4) and no step calls it: it says which bytes a call sends, and what it makes of what comes back. -/

namespace Sys2Proof.Machine

/-- `BusError` (rules R181, R206). -/
inductive BusError where
  | timeout
  | decode
deriving DecidableEq, Repr

/-- What the master's decoder is given while a call waits (rules R136, R182). When, and whether, it gets an `RxTimeout` of its
own is left free (rule R114, V4); DESIGN CHOICE (log 19): the timeouts are entries of a list, among the bytes. -/
inductive Heard where
  /-- A byte that arrived. -/
  | byte (b : Byte)
  /-- An `RxTimeout` of the master's own decoder. -/
  | timeout
deriving DecidableEq, Repr

/-- One thing heard by a decoder with no `ctl` gating (rules R114, R182), and the result reported, if any. -/
def Rx.hear (cfg : Config) (rx : Rx) (h : Heard) : Option (Rx × Option RxResult) :=
  match h with
  | .byte b => (rx.step cfg b).map fun q => (q.1, some q.2)
  | .timeout => some (rx.timeout.1, rx.timeout.2)

/-- A run of that decoder: its registers after all it heard, and the results reported, in order. -/
def Rx.listen (cfg : Config) (rx : Rx) : List Heard → Option (Rx × List RxResult)
  | [] => some (rx, [])
  | h :: hs =>
    match rx.hear cfg h with
    | none => none
    | some (rx', r) => (Rx.listen cfg rx' hs).map fun q => (q.1, r.toList ++ q.2)

/-- The bytes `call(a, c, p)` sends (rules R76, R182); address 0 cannot be called (rules R181, R188). -/
def callRequest (cfg : Config) (a c : Byte) (p : Payload) : Option (List Byte) :=
  if a = 0 then none else some (encode cfg a c p)

/-- A decoded frame matches the outstanding call on address and command alone (rule R184). -/
def Transaction.answers (t : Transaction) (a c : Byte) : Bool := t.addr == a && t.cmd == c

/-- The payload of the first matching frame in what the decoder hears (rules R182, R190): a frame that does not match is
discarded and the wait goes on. In which registers the decoder is when the call begins, and which timeouts it gets, the spec
leaves open: both are arguments (DESIGN CHOICE, logs 18 and 19). -/
def firstAnswer (cfg : Config) (a c : Byte) (rx : Rx) : List Heard → Option Payload
  | [] => none
  | h :: hs =>
    match rx.hear cfg h with
    | none => none
    | some (rx', r) =>
      match r with
      | some (.frameOk t) => if t.answers a c then some t.payload else firstAnswer cfg a c rx' hs
      | _ => firstAnswer cfg a c rx' hs

/-- What `call(a, c, p)` returns when this is what its decoder, in state `rx`, was given within the window (rules R182, R185,
R186); the window's length is the master's open parameter. -/
def callResult (cfg : Config) (rx : Rx) (a c : Byte) (heard : List Heard) : Except BusError Payload :=
  match firstAnswer cfg a c rx heard with
  | some p => .ok p
  | none => if heard.all (· == .timeout) then .error .timeout else .error .decode

/-- `call(a, c, p)`: the bytes sent and the result (rules R181, R182); none for address 0, which cannot be called. -/
def call (cfg : Config) (rx : Rx) (a c : Byte) (p : Payload) (heard : List Heard) :
    Option (List Byte × Except BusError Payload) :=
  (callRequest cfg a c p).map fun sent => (sent, callResult cfg rx a c heard)

/-- The system-wide stop (rules R77, R189): one call of id 255 per known board, in sequence. -/
def allStop (boards : List Byte) (p : Payload) : List (Byte × Byte × Payload) := boards.map fun a => (a, 255, p)

end Sys2Proof.Machine
end

