-- ==== Sys2Proof/Machine/Schedule.lean ====
section
/-! DEFINITION. The eager schedule of rule R245: a run as a finite list of input events, after each of which the block's own
steps run until none is enabled. It restricts the schedule, not the block: the steps are those of `step`. -/

namespace Sys2Proof.Machine

/-- What a run reaches, and the outputs of its steps, in order. -/
abbrev Run := Host.Outcome State Fault Refusal × List Output

/-- A run goes on from the state it has reached; one that has stopped stays so. -/
def Run.andThen (r : Run) (f : State → Run) : Run :=
  match r.1 with
  | .next t => ((f t).1, r.2 ++ (f t).2)
  | .fault x => (.fault x, r.2)
  | .refused x => (.refused x, r.2)

/-- One step as a run. -/
def State.stepRun (s : State) : Run :=
  match step s with
  | .next t => (.next t, [t.out])
  | .fault x => (.fault x, [])
  | .refused x => (.refused x, [])

/-- At most `n` steps, as long as an event is at hand. -/
def State.settleIn : Nat → State → Run
  | 0, s => (.next s, [])
  | n + 1, s => if s.nextEvent = none then (.next s, []) else Run.andThen s.stepRun (State.settleIn n)

/-- Steps enough for every queued event, the reply in progress, one `Dispatch`, and the longest reply (rules R70, R171). -/
def State.budget (s : State) : Nat := s.pending.length + s.txBuf.length + 17

/-- The block's own steps, until none is enabled (rule R245). -/
def State.settle (s : State) : Run := State.settleIn s.budget s

/-- The eager run of a list of input events (rule R245): before each input, and after the last, the block settles. -/
def State.eagerRun (s : State) : List Event → Run
  | [] => s.settle
  | e :: es =>
    Run.andThen s.settle fun t => Run.andThen { t with pending := [e] }.stepRun fun u => State.eagerRun u es

/-- A run is quiescent when the block waits and no input is left (rule R245). -/
abbrev State.quiescent (s : State) : Prop :=
  (s.ctl = .waitingForFrame ∨ s.ctl = .registering ∨ s.ctl = .halted) ∧ s.pending = []

end Sys2Proof.Machine
end

