-- ==== Sys2Proof/Safety.lean ====
section
/-! DEFINITION. What the claims speak of: the invariants of rule R32, the premises of rules R169, R170 and R234, and the bytes
a run emits. -/

namespace Sys2Proof.Machine

/-- The XOR of the first `n` bytes of `rx_buf` (rule R32 item 3). -/
def RxBuf.xorFirst (buf : RxBuf) (n : Nat) : Byte := (buf.toList.take n).foldl (· ^^^ ·) 0

/-- Items 2 and 3 of rule R32: the decoder's counter fits its state, and its running XOR is that of the bytes taken. -/
abbrev Rx.Inv (rx : Rx) : Prop :=
  (rx.state = .inFrame ∨ rx.state = .escaped → rx.cnt ≤ 5) ∧
  (rx.state = .expectChecksum → rx.cnt = 6 ∨ rx.cnt = 7) ∧
  (rx.state ≠ .idle → rx.xor = rx.buf.xorFirst (min rx.cnt 6))

/-- Item 4 of rule R32 and rule R22: the transmit registers. -/
abbrev State.TxInv (s : State) : Prop :=
  s.txLen = s.txBuf.length ∧
  (s.ctl = .replying → 9 ≤ s.txLen ∧ s.txLen ≤ 15 ∧ s.txIdx < s.txLen ∧
    s.txBuf = encode s.cfg s.cfg.myAddr s.reqCmd s.respPayload) ∧
  (s.ctl ≠ .replying → s.txIdx = s.txLen)

/-- The invariant of the block: rule R32, rule R22, the untouched board of rules R172 and R173, and the canonical form of
the table (log 5). -/
abbrev State.Inv (s : State) : Prop :=
  (s.ctl ≠ .waitingForFrame → s.rx.state = .idle) ∧
  s.rx.Inv ∧
  s.TxInv ∧
  (s.ctl = .halted ↔ s.bootErr ≠ none) ∧
  (s.ctl.running = true → DispatchTable.find s.dt 255 ≠ none) ∧
  (s.ctl.running = false → s.board = s.cfg.bs0) ∧
  DispatchTable.wf s.dt

/-- The two premises of rule R170: the handler bound to 255 makes the board neutral, and `control` keeps it so. -/
def State.SafetyPremises (s : State) : Prop :=
  (∀ h, DispatchTable.find s.dt 255 = some h → ∀ p bs,
    NeutralRef.holds s.cfg.neutral (HandlerRef.run h 255 p bs).board = true) ∧
  (∀ bs x, NeutralRef.holds s.cfg.neutral bs = true →
    NeutralRef.holds s.cfg.neutral (ControlRef.run s.cfg.control bs x) = true)

/-- The interlock premise of rule R169 for an application's own hard-stop condition and its own reading of what respects it:
`control` keeps the stop whatever the goal was. No rule of the block depends on it. -/
def ControlRef.InterlockPremise (c : ControlRef) (hardStop : Sensors → Bool) (respects : BoardState → Bool) : Prop :=
  ∀ bs x, hardStop x = true → respects (ControlRef.run c bs x) = true

/-- The premise on the configuration that the initial board is neutral (rules R5, R234). -/
def neutralStart (cfg : Config) : Prop := NeutralRef.holds cfg.neutral cfg.bs0 = true

/-- `n` steps of the machine. -/
def State.after (n : Nat) (s : State) : Host.Outcome State Fault Refusal := Host.Core.run Sys2Proof.core n s

/-- The bytes handed to the serial transmitter in the next `n` steps, in order (rule R29). -/
def State.emits : Nat → State → List Byte
  | 0, _ => []
  | n + 1, s =>
    match step s with
    | .next t => t.out.tx.toList ++ State.emits n t
    | .fault _ => []
    | .refused _ => []

end Sys2Proof.Machine
end

