-- ==== Sys2Proof/Certificates/Slice0/Obligations.lean ====
section
/-! DEFINITION. The statements for the provers. -/

open Sys2Proof Sys2Proof.Machine

/-! ### Vocabulary -/

/-- Event `e`, next in the queue of a well-configured block in state `s`, leads to `t` (whose queue is the rest). -/
def Sys2Proof.Machine.State.takes (s : State) (e : Event) (t : State) : Prop :=
  s.cfg.wf → ∀ rest, s.pending = e :: rest → step s = .next { t with pending := rest }

/-- What the multiplexer selects for command `c` with payload `p` (rules R146, R150). -/
def Sys2Proof.Machine.State.selected (s : State) (c : Byte) (p : Payload) : HandlerResult :=
  match DispatchTable.find s.dt c with
  | some h => HandlerRef.run h c p s.board
  | none => ⟨0, .unknownCommand, s.board⟩

/-- The state `Dispatch` leaves for command `c` answered with `r` (rule R146): every field not named keeps its value. -/
def Sys2Proof.Machine.State.answered (s : State) (c : Byte) (r : HandlerResult) : State :=
  { s with
    respPayload := r.resp
    lastOutcome := r.outcome
    board := r.board
    txBuf := encode s.cfg s.cfg.myAddr c r.resp
    txLen := (encode s.cfg s.cfg.myAddr c r.resp).length
    txIdx := 0
    ctl := .replying
    out := ⟨none, none, some r.outcome⟩ }

/-- The reply bytes and the last board when each of these requests is answered before the next (rules R146, R165). -/
def Sys2Proof.Machine.State.conversation (s : State) : List (Byte × Payload) → List Byte × BoardState
  | [] => ([], s.board)
  | r :: rs =>
    let reply := s.selected r.1 r.2
    let others := State.conversation { s with board := reply.board } rs
    (encode s.cfg s.cfg.myAddr r.1 reply.resp ++ others.1, others.2)

/-- The raw bytes of a frame with the body of `t` and checksum byte `k`. -/
def Sys2Proof.Machine.Transaction.frameWith (cfg : Config) (t : Transaction) (k : Byte) : List Byte :=
  encodeFields cfg ⟨t.addr, t.cmd, t.payload, k⟩

/-- The raw bytes of the frame of `t`. -/
def Sys2Proof.Machine.Transaction.frame (cfg : Config) (t : Transaction) : List Byte :=
  encode cfg t.addr t.cmd t.payload

/-! ### Encoding -/

/-- A few words written out bit by bit from rule R79, with what they stand for. -/
def Obligations.WrittenWordsDecode : Prop :=
  decodeTableWord 72 0b011111100000000111111111000000000000000000000000000000001111111001111111
    = some (.estop 1 0 0xFE) ∧
  decodeTableWord 72 0b011111100000000100000011000000000000000000000011111010001110100101111111
    = some (.cmd 1 3 1000 0xE9) ∧
  decodeTableWord 72 0b011111100000000100000111000000000000000000000000000001010000001101111111
    = some (.unknown 1 7 5 3) ∧
  decodeTableWord 72 0b011111100000000100000010000000000000000000000000011110000111101101111111
    = some (.spin0 1 120 0x7B)

/-- Rule R68: the encoding, byte for byte, with the stuffing of rule R64 written out. -/
def Obligations.EncodeFollowsLayout : Prop :=
  ∀ (cfg : Config) (a c : Byte) (p : Payload),
    let st : Byte → List Byte := fun v =>
      if v = cfg.start ∨ v = cfg.stop ∨ v = cfg.esc then [cfg.esc, v ^^^ cfg.mask] else [v]
    let d2 := p.extractLsb' 24 8
    let d3 := p.extractLsb' 16 8
    let d4 := p.extractLsb' 8 8
    let d5 := p.extractLsb' 0 8
    encode cfg a c p =
      [cfg.start] ++ st a ++ st c ++ st d2 ++ st d3 ++ st d4 ++ st d5 ++ [a ^^^ c ^^^ d2 ^^^ d3 ^^^ d4 ^^^ d5] ++ [cfg.stop]

/-- Decoding what was encoded gives the instruction back, every field at every value, on every board and configuration. -/
def Obligations.DecodeInvertsEncode : Prop :=
  ∀ (cfg : Config) (bound : Byte → Bool) (i : Instr), cfg.wf → i.WellFormed bound →
    decode cfg bound (encodeInstr cfg i) = .ok i

/-- Only encodings decode: a byte sequence the decoder reads is the encoding of what it reads (rule R71). -/
def Obligations.OnlyEncodingsDecode : Prop :=
  ∀ (cfg : Config) (bound : Byte → Bool) (bytes : List Byte) (i : Instr), cfg.wf →
    decode cfg bound bytes = .ok i → i.WellFormed bound ∧ encodeInstr cfg i = bytes

/-- Rule R70: a frame is nine raw bytes and one more for each special body byte, at most fifteen. -/
def Obligations.FrameLengthCountsSpecials : Prop :=
  ∀ (cfg : Config) (a c : Byte) (p : Payload),
    (encode cfg a c p).length = 9 + (body a c p).countP (special cfg) ∧
    (body a c p).countP (special cfg) ≤ 6

/-- Rule R64: between `START` and the checksum no raw byte of a frame equals a sentinel. -/
def Obligations.StuffedBodyHoldsNoSentinel : Prop :=
  ∀ (cfg : Config) (a c : Byte) (p : Payload), cfg.wf →
    ∃ raw : List Byte, encode cfg a c p = cfg.start :: (raw ++ [checksum a c p, cfg.stop]) ∧
      ∀ b ∈ raw, b ≠ cfg.start ∧ b ≠ cfg.stop

/-! ### The decoder, event by event -/

/-- Rule R101. -/
def Obligations.IdleSkipsToStart : Prop :=
  ∀ (s : State) (b : Byte), s.ctl = .waitingForFrame → s.rx.state = .idle →
    s.takes (.rxByte b)
      (if b = s.cfg.start then
        { s with rx := { s.rx with state := .inFrame, cnt := 0, xor := 0 }, out := ⟨some .needMore, none, none⟩ }
      else { s with out := ⟨some .needMore, none, none⟩ })

/-- Rules R102 to R105. -/
def Obligations.InFrameTakesBodyBytes : Prop :=
  ∀ (s : State) (b : Byte), s.ctl = .waitingForFrame → s.rx.state = .inFrame → s.rx.cnt ≤ 5 →
    s.takes (.rxByte b)
      (if b = s.cfg.start then
        { s with rx := { s.rx with state := .inFrame, cnt := 0, xor := 0 }, out := ⟨some .frameTooShort, none, none⟩ }
      else if b = s.cfg.stop then
        { s with rx := { s.rx with state := .idle }, out := ⟨some .frameTooShort, none, none⟩ }
      else if b = s.cfg.esc then
        { s with rx := { s.rx with state := .escaped }, out := ⟨some .needMore, none, none⟩ }
      else
        { s with
          rx := { s.rx with
            state := if s.rx.cnt = 5 then .expectChecksum else .inFrame
            cnt := s.rx.cnt + 1
            buf := s.rx.buf.put s.rx.cnt b
            xor := s.rx.xor ^^^ b }
          out := ⟨some .needMore, none, none⟩ })

/-- Rules R106 to R108 and R122. -/
def Obligations.EscapedTakesImagesOnly : Prop :=
  ∀ (s : State) (b : Byte), s.ctl = .waitingForFrame → s.rx.state = .escaped → s.rx.cnt ≤ 5 →
    s.takes (.rxByte b)
      (if b = s.cfg.start then
        { s with rx := { s.rx with state := .inFrame, cnt := 0, xor := 0 }, out := ⟨some .frameTooShort, none, none⟩ }
      else if b = s.cfg.stop then
        { s with rx := { s.rx with state := .idle }, out := ⟨some .frameTooShort, none, none⟩ }
      else if special s.cfg (b ^^^ s.cfg.mask) = true then
        { s with
          rx := { s.rx with
            state := if s.rx.cnt = 5 then .expectChecksum else .inFrame
            cnt := s.rx.cnt + 1
            buf := s.rx.buf.put s.rx.cnt (b ^^^ s.cfg.mask)
            xor := s.rx.xor ^^^ (b ^^^ s.cfg.mask) }
          out := ⟨some .needMore, none, none⟩ }
      else { s with rx := { s.rx with state := .idle }, out := ⟨some .frameCorrupt, none, none⟩ })

/-- Rule R109: whatever its value, the byte at this position is the checksum. -/
def Obligations.ChecksumByteIsLatched : Prop :=
  ∀ (s : State) (b : Byte), s.ctl = .waitingForFrame → s.rx.state = .expectChecksum → s.rx.cnt = 6 →
    s.takes (.rxByte b) { s with rx := { s.rx with csum := b, cnt := 7 }, out := ⟨some .needMore, none, none⟩ }

/-- Rules R110, R111, R112, R161 and R162: the byte after the checksum. -/
def Obligations.ClosingByteValidates : Prop :=
  ∀ (s : State) (b : Byte), s.ctl = .waitingForFrame → s.rx.state = .expectChecksum → s.rx.cnt = 7 →
    let t : Transaction :=
      ⟨s.rx.buf.b0, s.rx.buf.b1, s.rx.buf.b2 ++ s.rx.buf.b3 ++ s.rx.buf.b4 ++ s.rx.buf.b5⟩
    s.takes (.rxByte b)
      (if b = s.cfg.stop then
        if s.rx.csum = s.rx.xor then
          if t.addr = s.cfg.myAddr then
            { s with
              rx := { s.rx with state := .idle }
              reqCmd := t.cmd
              reqPayload := t.payload
              ctl := .dispatching
              out := ⟨some (.frameOk t), none, none⟩ }
          else { s with rx := { s.rx with state := .idle }, out := ⟨some (.frameOk t), none, none⟩ }
        else { s with rx := { s.rx with state := .idle }, out := ⟨some .frameCorrupt, none, none⟩ }
      else if b = s.cfg.start then
        { s with rx := { s.rx with state := .inFrame, cnt := 0, xor := 0 }, out := ⟨some .frameTooShort, none, none⟩ }
      else { s with rx := { s.rx with state := .idle }, out := ⟨some .frameTooShort, none, none⟩ })

/-- Rule R114. -/
def Obligations.TimeoutGivesFrameUp : Prop :=
  ∀ s : State,
    s.takes .rxTimeout
      (if s.ctl = .waitingForFrame ∧ s.rx.state ≠ .idle then
        { s with rx := { s.rx with state := .idle }, out := ⟨some .frameTooShort, none, none⟩ }
      else { s with out := Output.silent })

/-- Rules R117 and R241: any number of bytes that arrive outside `WaitingForFrame` change nothing. -/
def Obligations.BytesToBusyBlockAreLost : Prop :=
  ∀ (s : State) (bytes : List Byte) (rest : List Event), s.cfg.wf → s.ctl ≠ .waitingForFrame → bytes ≠ [] →
    s.pending = bytes.map Event.rxByte ++ rest →
    s.after bytes.length = .next { s with pending := rest, out := Output.silent }

/-! ### The decoder over whole byte sequences -/

/-- Rule R78: the round trip of the streaming decoder. -/
def Obligations.StreamingRoundTrip : Prop :=
  ∀ (cfg : Config) (rx : Rx) (t : Transaction), cfg.wf → rx.state = .idle →
    ∃ rx', rx'.state = .idle ∧
      rx.run cfg (t.frame cfg) = some (rx', List.replicate ((t.frame cfg).length - 1) .needMore ++ [.frameOk t])

/-- Rule R118, its first sentence: after a verdict the decoder is in `Idle` or at the start of a new frame. -/
def Obligations.VerdictResynchronises : Prop :=
  ∀ (cfg : Config) (rx rx' : Rx) (b : Byte) (r : RxResult), rx.step cfg b = some (rx', r) → r ≠ .needMore →
    rx'.state = .idle ∨ (rx'.state = .inFrame ∧ rx'.cnt = 0 ∧ rx'.xor = 0 ∧ b = cfg.start)

/-- Rule R118: a whole frame is accepted wherever its `START` arrives, unless that is the checksum position. -/
def Obligations.WholeFrameIsAccepted : Prop :=
  ∀ (cfg : Config) (rx : Rx) (t : Transaction), cfg.wf →
    (rx.state = .expectChecksum → rx.cnt = 7) →
    ∃ rx' rs, rx'.state = .idle ∧ rx.run cfg (t.frame cfg) = some (rx', rs ++ [.frameOk t]) ∧
      ∀ r ∈ rs, ∀ t', r ≠ .frameOk t'

/-- Rules R65, R110, R121: a whole frame body is accepted exactly when the checksum byte that came with it is its own. -/
def Obligations.ChecksumDecidesVerdict : Prop :=
  ∀ (cfg : Config) (rx : Rx) (t : Transaction) (k : Byte), cfg.wf → rx.state = .idle →
    ∃ rx', rx'.state = .idle ∧
      rx.run cfg (t.frameWith cfg k) =
        some (rx', List.replicate ((t.frameWith cfg k).length - 1) .needMore ++
          [if k = checksum t.addr t.cmd t.payload then .frameOk t else .frameCorrupt])

/-- Rule R115: from a `START`, a verdict comes within fourteen further raw bytes. -/
def Obligations.VerdictWithinByteBudget : Prop :=
  ∀ (cfg : Config) (rx rx' : Rx) (bytes : List Byte) (rs : List RxResult), cfg.wf →
    rx.state = .inFrame → rx.cnt = 0 → bytes.length = 14 → rx.run cfg bytes = some (rx', rs) →
    ∃ r ∈ rs, r ≠ .needMore

/-- Rules R16, R17 and R116 (and V1): what the receive registers hold in `Idle` decides no later result. -/
def Obligations.IdleRegistersAreDead : Prop :=
  ∀ (cfg : Config) (rx rx' : Rx) (bytes : List Byte), rx.state = .idle → rx'.state = .idle →
    ((rx.run cfg bytes).map fun q => (q.1.state, q.2)) = ((rx'.run cfg bytes).map fun q => (q.1.state, q.2)) ∧
    (rx.run cfg bytes).isSome = true

/-- Rule R119: one lost byte never costs the next frame, and no record comes from the damaged one. -/
def Obligations.OneLostByteCostsOneFrame : Prop :=
  ∀ (cfg : Config) (rx : Rx) (t1 t2 : Transaction) (n : Nat), cfg.wf → rx.state = .idle →
    n < (t1.frame cfg).length →
    ∃ rx' rs, rx.run cfg ((t1.frame cfg).eraseIdx n ++ t2.frame cfg) = some (rx', rs ++ [.frameOk t2]) ∧
      ∀ r ∈ rs, ∀ t', r ≠ .frameOk t'

/-- Rule R120: after one changed byte the next whole frame is accepted in every case, and no record comes from the damaged
one unless the `ESC` of a pair became a byte that is not special. -/
def Obligations.OneChangedByteCostsOneFrame : Prop :=
  ∀ (cfg : Config) (rx : Rx) (t1 t2 : Transaction) (n : Nat) (old new : Byte), cfg.wf → rx.state = .idle →
    (t1.frame cfg)[n]? = some old → new ≠ old →
    ∃ rx' rs, rx.run cfg ((t1.frame cfg).set n new ++ t2.frame cfg) = some (rx', rs ++ [.frameOk t2]) ∧
      (¬ (old = cfg.esc ∧ n + 2 < (t1.frame cfg).length ∧ special cfg new = false) → ∀ r ∈ rs, ∀ t', r ≠ .frameOk t')

/-- Rule R118: a frame whose `START` falls on the checksum position of an earlier one is lost, and the decoder is in `Idle`
after it. -/
def Obligations.FrameAtChecksumPositionIsLost : Prop :=
  ∀ (cfg : Config) (rx : Rx) (t : Transaction), cfg.wf → rx.state = .expectChecksum → rx.cnt = 6 →
    ∃ rx' rs, rx'.state = .idle ∧ rx.run cfg (t.frame cfg) = some (rx', rs) ∧ ∀ r ∈ rs, ∀ t', r ≠ .frameOk t'

/-! ### The command frames -/

/-- Rule R148: an accepted `ESTOP` runs the handler of 255 and is answered; with no such handler (no running state) the
multiplexer's default answers. -/
def Obligations.EstopRunsItsHandler : Prop :=
  ∀ (s : State) (a : Byte) (p : Payload) (k : Byte), s.ctl = .dispatching →
    exec (.estop a p k) s = .next (s.answered 255
      (match DispatchTable.find s.dt 255 with
      | some h => HandlerRef.run h 255 p s.board
      | none => ⟨0, .unknownCommand, s.board⟩))

/-- Rule R147: an accepted `CMD` runs the handler bound to its id and is answered with what the handler returns. -/
def Obligations.CmdRunsBoundHandler : Prop :=
  ∀ (s : State) (a c : Byte) (p : Payload) (k : Byte) (h : HandlerRef), s.ctl = .dispatching →
    DispatchTable.find s.dt c = some h →
    exec (.cmd a c p k) s = .next (s.answered c (HandlerRef.run h c p s.board))

/-- Rule R149: an accepted `UNKNOWN` is answered with payload 0 and leaves the board alone. -/
def Obligations.UnknownIsAnsweredWithZero : Prop :=
  ∀ (s : State) (a c : Byte) (p : Payload) (k : Byte), s.ctl = .dispatching →
    DispatchTable.find s.dt c = none →
    exec (.unknown a c p k) s = .next (s.answered c ⟨0, .unknownCommand, s.board⟩)

/-- Rule R147 for the source's example, id 2. -/
def Obligations.Spin0RunsBoundHandler : Prop :=
  ∀ (s : State) (a : Byte) (p : Payload) (k : Byte) (h : HandlerRef), s.ctl = .dispatching →
    DispatchTable.find s.dt 2 = some h →
    exec (.spin0 a p k) s = .next (s.answered 2 (HandlerRef.run h 2 p s.board))

/-- Rules R146 and R150: in `Dispatching` the table alone selects what answers, whichever instruction it is. -/
def Obligations.TableSelectsTheAnswer : Prop :=
  ∀ (i : Instr) (s : State), s.ctl = .dispatching →
    exec i s = .next (s.answered i.id (s.selected i.id i.payload))

/-- Rules R110, R161, R162: what every command frame does at its `END` byte. -/
def Obligations.CommandFrameIsValidatedAndFiltered : Prop :=
  ∀ (i : Instr) (s : State), s.ctl = .waitingForFrame →
    exec i s = .next
      (if i.csum = s.rx.xor then
        if i.addr = s.cfg.myAddr then
          { s with
            rx := { s.rx with state := .idle }
            reqCmd := i.id
            reqPayload := i.payload
            ctl := .dispatching
            out := ⟨some (.frameOk ⟨i.addr, i.id, i.payload⟩), none, none⟩ }
        else
          { s with
            rx := { s.rx with state := .idle }
            out := ⟨some (.frameOk ⟨i.addr, i.id, i.payload⟩), none, none⟩ }
      else { s with rx := { s.rx with state := .idle }, out := ⟨some .frameCorrupt, none, none⟩ })

/-- The model's choice (log 10, after rule R117): in the other control states a command frame changes nothing. -/
def Obligations.CommandFrameWaitsElsewhere : Prop :=
  ∀ (i : Instr) (s : State), s.ctl ≠ .waitingForFrame → s.ctl ≠ .dispatching → exec i s = .next s

/-- The step that puts a frame into effect runs the instruction decoded from that frame's bytes: at the `END` byte the
frame in the receive registers, at `Dispatch` the accepted request. The step adds only the taking of the event. -/
def Obligations.StepRunsDecodedInstruction : Prop :=
  ∀ (s : State) (i : Instr), s.cfg.wf →
    (s.ctl = .waitingForFrame → s.rx.state = .expectChecksum → s.rx.cnt = 7 →
      s.nextEvent = some (.rxByte s.cfg.stop) →
      decode s.cfg (DispatchTable.bound s.dt) (s.rx.record.frameWith s.cfg s.rx.csum) = .ok i →
      step s = exec i { s with pending := s.pending.tail, out := Output.silent }) ∧
    (s.ctl = .dispatching → s.nextEvent = some .dispatch →
      decode s.cfg (DispatchTable.bound s.dt) (encode s.cfg s.cfg.myAddr s.reqCmd s.reqPayload) = .ok i →
      step s = exec i { s with pending := s.pending.tail, out := Output.silent })

/-- In `Dispatching`, where alone it is enabled (rules R28, R146), `Dispatch` answers the accepted request. The last clause is
the model's choice (log 7): elsewhere, where the spec has no such step, a queued `Dispatch` is taken and changes nothing. -/
def Obligations.DispatchAnswersTheRequest : Prop :=
  ∀ s : State,
    s.takes .dispatch
      (if s.ctl = .dispatching then s.answered s.reqCmd (s.selected s.reqCmd s.reqPayload)
      else { s with out := Output.silent })

/-! ### The reply -/

/-- In `Replying`, where alone it is enabled (rules R132, R133), `TxByte` sends the next byte. The last clause is the model's
choice (log 7): elsewhere, where the spec has no such step, a queued `TxByte` is taken and changes nothing. -/
def Obligations.TxByteSendsTheNextByte : Prop :=
  ∀ (s : State) (b : Byte), (s.ctl = .replying → s.txBuf[s.txIdx]? = some b) →
    s.takes .txByte
      (if s.ctl = .replying then
        { s with
          ctl := if s.txIdx + 1 = s.txLen then .waitingForFrame else .replying
          txIdx := s.txIdx + 1
          out := ⟨none, some b, none⟩ }
      else { s with out := Output.silent })

/-- Rule R166: bytes are emitted only in `Replying`, and then the reply's own. -/
def Obligations.OnlyRepliesAreEmitted : Prop :=
  ∀ (s t : State) (b : Byte), step s = .next t → t.out.tx = some b →
    s.ctl = .replying ∧ s.txBuf[s.txIdx]? = some b ∧ t.txIdx = s.txIdx + 1

/-- Rule R134: no event but `Reset` aborts or changes a loaded reply. -/
def Obligations.ReplySurvivesOtherEvents : Prop :=
  ∀ s t : State, step s = .next t → s.ctl = .replying → s.nextEvent ≠ some .reset →
    t.txBuf = s.txBuf ∧ t.txLen = s.txLen ∧
    (s.nextEvent ≠ some .txByte → t.ctl = .replying ∧ t.txIdx = s.txIdx)

/-- Rules R165 and R171: left to itself, a block that accepted a request answers it with one whole frame, in one `Dispatch`
and as many `TxByte` steps as the frame has bytes, and waits again. -/
def Obligations.AcceptedRequestIsAnswered : Prop :=
  ∀ s : State, s.cfg.wf → s.Inv → s.ctl = .dispatching → s.pending = [] →
    let r := s.selected s.reqCmd s.reqPayload
    let reply := encode s.cfg s.cfg.myAddr s.reqCmd r.resp
    s.emits (1 + reply.length) = reply ∧
    s.after (1 + reply.length) =
      .next { s.answered s.reqCmd r with
        ctl := .waitingForFrame
        txIdx := reply.length
        out := ⟨none, some s.cfg.stop, none⟩ }

/-- Rules R78, R161, R44: a request for this board, received whole by a waiting block, is accepted; nothing but the receive
registers, the request registers and `ctl` changes. -/
def Obligations.WholeRequestIsAccepted : Prop :=
  ∀ (s : State) (c : Byte) (p : Payload) (rest : List Event), s.cfg.wf → s.ctl = .waitingForFrame →
    s.rx.state = .idle → s.pending = (encode s.cfg s.cfg.myAddr c p).map Event.rxByte ++ rest →
    ∃ rx', rx'.state = .idle ∧
      s.after (encode s.cfg s.cfg.myAddr c p).length =
        .next { s with
          rx := rx'
          reqCmd := c
          reqPayload := p
          ctl := .dispatching
          pending := rest
          out := ⟨some (.frameOk ⟨s.cfg.myAddr, c, p⟩), none, none⟩ }

/-- Rules R134 and R171: whatever the other agents do in between, `Reset` apart, a reply in progress is sent to its last byte,
and then the block waits again. -/
def Obligations.ReplyIsFinishedUnderAnySchedule : Prop :=
  ∀ s : State, s.cfg.wf → s.Inv → s.ctl = .replying → Event.reset ∉ s.pending →
    ∃ n t, n ≤ s.pending.length + (s.txLen - s.txIdx) ∧ s.after n = .next t ∧ t.ctl = .waitingForFrame ∧
      s.emits n = s.txBuf.drop s.txIdx

/-- Rules R165 and R244: a request for this board that reaches a waiting block is answered with one whole frame, in one step
per raw byte of the request, one `Dispatch`, and one step per raw byte of the reply: 19 to 31 steps. -/
def Obligations.TransactionIsCounted : Prop :=
  ∀ (s : State) (c : Byte) (p : Payload), s.cfg.wf → s.Inv → s.ctl = .waitingForFrame → s.rx.state = .idle →
    s.pending = (encode s.cfg s.cfg.myAddr c p).map Event.rxByte →
    let r := s.selected c p
    let reply := encode s.cfg s.cfg.myAddr c r.resp
    let n := (encode s.cfg s.cfg.myAddr c p).length + 1 + reply.length
    19 ≤ n ∧ n ≤ 31 ∧ s.emits n = reply ∧
    ∃ t, s.after n = .next t ∧ t.ctl = .waitingForFrame ∧ t.board = r.board ∧ t.lastOutcome = r.outcome

/-! ### Boot, reset, control step -/

/-- Rule R230. -/
def Obligations.ResetRestoresEverything : Prop :=
  ∀ s : State,
    s.takes .reset
      { cfg := s.cfg
        ctl := .registering
        bootErr := none
        dt := []
        rx := ⟨.idle, 0, ⟨0, 0, 0, 0, 0, 0⟩, 0, 0⟩
        reqCmd := 0
        reqPayload := 0
        respPayload := 0
        lastOutcome := .ok
        txBuf := []
        txLen := 0
        txIdx := 0
        board := s.cfg.bs0
        pending := []
        out := Output.silent }

/-- Rules R140, R141 and R142: `Register` in every state. -/
def Obligations.RegisterBindsOrHalts : Prop :=
  ∀ (s : State) (id : Byte) (h : HandlerRef),
    s.takes (.register id h)
      (if s.ctl = .registering then
        if DispatchTable.find s.dt id = none then
          { s with dt := DispatchTable.bind id h s.dt, out := Output.silent }
        else { s with bootErr := some .duplicateCommand, ctl := .halted, out := Output.silent }
      else { s with out := Output.silent })

/-- Rule R140: binding writes one entry of the table and no other. -/
def Obligations.BindWritesOneEntry : Prop :=
  ∀ (t : DispatchTable) (id c : Byte) (h : HandlerRef),
    DispatchTable.find (DispatchTable.bind id h t) c = if c = id then some h else DispatchTable.find t c

/-- Rule R140: the order of registrations has no effect on the resulting table. -/
def Obligations.RegistrationOrderIsIrrelevant : Prop :=
  ∀ (t : DispatchTable) (i j : Byte) (h g : HandlerRef), DispatchTable.wf t → i ≠ j →
    DispatchTable.bind i h (DispatchTable.bind j g t) = DispatchTable.bind j g (DispatchTable.bind i h t)

/-- Rule R143: `Start` in every state. -/
def Obligations.StartRequiresSafeHandler : Prop :=
  ∀ s : State,
    s.takes .start
      (if s.ctl = .registering then
        if DispatchTable.find s.dt 255 ≠ none then { s with ctl := .waitingForFrame, out := Output.silent }
        else { s with bootErr := some .missingSafeHandler, ctl := .halted, out := Output.silent }
      else { s with out := Output.silent })

/-- Rule R233, its first two rows: the boot sequence with pairwise different ids, from any state. -/
def Obligations.BootWithDistinctIds : Prop :=
  ∀ (s : State) (reg : List (Byte × HandlerRef)) (rest : List Event), s.cfg.wf →
    s.pending = bootEvents reg ++ rest → (reg.map Prod.fst).Nodup →
    ∃ dt : DispatchTable, DispatchTable.wf dt ∧
      (∀ c h, DispatchTable.find dt c = some h ↔ (c, h) ∈ reg) ∧
      s.after (reg.length + 2) = .next
        (if 255 ∈ reg.map Prod.fst then { State.resetOf s.cfg rest with ctl := .waitingForFrame, dt := dt }
        else
          { State.resetOf s.cfg rest with
            ctl := .halted
            bootErr := some .missingSafeHandler
            dt := dt })

/-- Rule R233, its third row: the boot sequence with an id that occurs twice. -/
def Obligations.BootWithDuplicateId : Prop :=
  ∀ (s : State) (before after : List (Byte × HandlerRef)) (r : Byte × HandlerRef) (rest : List Event), s.cfg.wf →
    s.pending = bootEvents (before ++ r :: after) ++ rest → (before.map Prod.fst).Nodup →
    r.1 ∈ before.map Prod.fst →
    ∃ dt : DispatchTable, DispatchTable.wf dt ∧
      (∀ c h, DispatchTable.find dt c = some h ↔ (c, h) ∈ before) ∧
      s.after ((before ++ r :: after).length + 2) = .next
        { State.resetOf s.cfg rest with ctl := .halted, bootErr := some .duplicateCommand, dt := dt }

/-- Rule R167 in the running states, where alone `ControlStep` is enabled. The last clause is the model's choice (log 7):
elsewhere, where the spec has no such step, a queued `ControlStep` is taken and changes nothing. -/
def Obligations.ControlStepWritesBoardAlone : Prop :=
  ∀ (s : State) (x : Sensors),
    s.takes (.controlStep x)
      (if s.ctl = .waitingForFrame ∨ s.ctl = .dispatching ∨ s.ctl = .replying then
        { s with board := ControlRef.run s.cfg.control s.board x, out := Output.silent }
      else { s with out := Output.silent })

/-! ### Whole-machine rules -/

/-- Rule R6, its items 1 to 3 written out: a configuration is refused, whatever event comes, exactly when it is not
well-formed; the reference bytes are well-formed with every address but 0. -/
def Obligations.IllFormedConfigurationIsRefused : Prop :=
  (∀ s : State, step s = .refused .illFormedConfig ↔
    ¬ ((s.cfg.start ≠ s.cfg.stop ∧ s.cfg.start ≠ s.cfg.esc ∧ s.cfg.stop ≠ s.cfg.esc) ∧
      (∀ b ∈ [s.cfg.start, s.cfg.stop, s.cfg.esc], b ^^^ s.cfg.mask ∉ [s.cfg.start, s.cfg.stop, s.cfg.esc]) ∧
      1 ≤ s.cfg.myAddr.toNat)) ∧
  ∀ (cfg : Config) (a : Byte), a ≠ 0 →
    { cfg with start := 0x7E, stop := 0x7F, esc := 0x7D, mask := 0x20, myAddr := a }.wf

/-- The model's choice (logs 7 and 9, after rules R215 and R245): with no event at hand the block does nothing. -/
def Obligations.QuiescentBlockWaits : Prop :=
  ∀ s : State, s.cfg.wf → s.pending = [] → s.ctl ≠ .dispatching → s.ctl ≠ .replying →
    step s = .next { s with out := Output.silent }

/-- Rules R33 and R32: the reset state meets the invariant, and its configuration is well-formed. -/
def Obligations.ResetMeetsInvariant : Prop :=
  State.reset.Inv ∧ State.reset.cfg.wf

/-- Rule R32: every step keeps the invariant. -/
def Obligations.EveryStepKeepsInvariant : Prop :=
  ∀ s t : State, s.Inv → step s = .next t → t.Inv

/-- Rule R192: with a well-formed configuration and the invariant, every event has a next state. -/
def Obligations.InvariantStatesNeverStop : Prop :=
  ∀ s : State, s.cfg.wf → s.Inv → ∃ t, step s = .next t

/-- Rule R160: the control transfers are those of the table, each with its event and condition. -/
def Obligations.ControlTransfersFollowTheTable : Prop :=
  ∀ s t : State, step s = .next t → t.ctl ≠ s.ctl →
    (s.nextEvent = some .reset ∧ t.ctl = .registering) ∨
    (s.ctl = .registering ∧ t.ctl = .halted ∧
      ∃ id h, s.nextEvent = some (.register id h) ∧ DispatchTable.find s.dt id ≠ none) ∨
    (s.ctl = .registering ∧ t.ctl = .waitingForFrame ∧
      s.nextEvent = some .start ∧ DispatchTable.find s.dt 255 ≠ none) ∨
    (s.ctl = .registering ∧ t.ctl = .halted ∧ s.nextEvent = some .start ∧ DispatchTable.find s.dt 255 = none) ∨
    (s.ctl = .waitingForFrame ∧ t.ctl = .dispatching ∧
      ∃ b rx' T, s.nextEvent = some (.rxByte b) ∧ s.rx.step s.cfg b = some (rx', .frameOk T) ∧
        T.addr = s.cfg.myAddr) ∨
    (s.ctl = .dispatching ∧ t.ctl = .replying ∧ s.nextEvent = some .dispatch) ∨
    (s.ctl = .replying ∧ t.ctl = .waitingForFrame ∧ s.nextEvent = some .txByte ∧ s.txIdx + 1 = s.txLen)

/-- Rules R13 and R52: once registration is over, only `Reset` changes the dispatch table. -/
def Obligations.TableIsFixedAfterRegistration : Prop :=
  ∀ s t : State, step s = .next t → s.ctl ≠ .registering → s.nextEvent ≠ some .reset → t.dt = s.dt

/-- Rule R14: no event writes the configuration. -/
def Obligations.ConfigurationNeverChanges : Prop :=
  ∀ s t : State, step s = .next t → t.cfg = s.cfg

/-- Rule R23: only `Dispatch`, `ControlStep` and `Reset` write the board. -/
def Obligations.OnlyThreeEventsWriteTheBoard : Prop :=
  ∀ s t : State, step s = .next t → t.board ≠ s.board →
    (s.nextEvent = some .dispatch ∧ s.ctl = .dispatching) ∨ s.nextEvent = some .reset ∨
    ∃ x, s.nextEvent = some (.controlStep x)

/-- Rule R172: in `Halted` nothing happens but `Reset`. -/
def Obligations.HaltedIsLeftByResetOnly : Prop :=
  ∀ s t : State, step s = .next t → s.ctl = .halted → s.nextEvent ≠ some .reset →
    t = { s with pending := s.pending.tail, out := Output.silent }

/-- Rule R170: under its two premises, `ESTOP` makes the board neutral, and it stays neutral until the next `Dispatch` or
`Reset`. -/
def Obligations.EmergencyStopHolds : Prop :=
  ∀ s t : State, s.SafetyPremises → step s = .next t →
    (s.ctl = .dispatching → s.nextEvent = some .dispatch → s.reqCmd = 255 → DispatchTable.find s.dt 255 ≠ none →
      NeutralRef.holds t.cfg.neutral t.board = true) ∧
    (s.nextEvent ≠ some .dispatch → s.nextEvent ≠ some .reset → NeutralRef.holds s.cfg.neutral s.board = true →
      NeutralRef.holds t.cfg.neutral t.board = true)

/-! ### The master's call, the block's environment -/

/-- Rules R182, R184 and R190: whatever the master's decoder heard before (noise, damaged frames, frames that do not match, its
own timeouts), as long as it reported no matching frame and does not stand before a checksum byte, the next whole frame that
matches is the call's answer, whatever comes after it. Address 0 cannot be called (rule R181). The decoder's state when the
call begins and its timeouts are free (logs 18, 19). -/
def Obligations.CallReturnsFirstMatchingPayload : Prop :=
  ∀ (cfg : Config) (rx rx' : Rx) (rs : List RxResult) (earlier later : List Heard) (a c : Byte) (p q : Payload), cfg.wf →
    rx.listen cfg earlier = some (rx', rs) → (∀ t, .frameOk t ∈ rs → t.addr ≠ a ∨ t.cmd ≠ c) →
    (rx'.state = .expectChecksum → rx'.cnt = 7) →
    call cfg rx a c q (earlier ++ (encode cfg a c p).map Heard.byte ++ later) =
      if a = 0 then none else some (encode cfg a c q, .ok p)

/-- Rules R185 and R186: a call whose decoder reports no matching frame fails, with `Timeout` when no byte came and with `Decode`
when bytes came, whatever they were; the decoder itself never stops. Address 0 cannot be called (rule R181). The decoder's
state when the call begins and its timeouts are free (logs 18, 19). -/
def Obligations.CallFailsWithoutMatch : Prop :=
  ∀ (cfg : Config) (rx : Rx) (heard : List Heard) (a c : Byte) (q : Payload), rx.Inv →
    ∃ rx' rs, rx.listen cfg heard = some (rx', rs) ∧
      ((∀ t, .frameOk t ∈ rs → t.addr ≠ a ∨ t.cmd ≠ c) →
        call cfg rx a c q heard =
          if a = 0 then none
          else some (encode cfg a c q, if ∃ b, Heard.byte b ∈ heard then .error .decode else .error .timeout))

/-! ### The eager schedule -/

/-- Rule R245: an eager run ends quiescent, and is a schedule of the machine's own steps in which every input is taken; requests
that follow each other without a gap are each answered in full (vector L6). -/
def Obligations.EagerRunSettlesAndAnswers : Prop :=
  (∀ (s : State) (inputs : List Event), s.cfg.wf → s.Inv → s.pending = [] →
    ∃ t outs queue, s.eagerRun inputs = (.next t, outs) ∧ t.Inv ∧ t.quiescent ∧
      inputs.Sublist queue ∧ outs.length = queue.length ∧
      ({ s with pending := queue } : State).after queue.length = .next t) ∧
  ∀ (s : State) (requests : List (Byte × Payload)), s.cfg.wf → s.Inv → s.pending = [] → s.ctl = .waitingForFrame →
    s.rx.state = .idle →
    ∃ t outs, s.eagerRun (requests.flatMap fun r => (encode s.cfg s.cfg.myAddr r.1 r.2).map Event.rxByte) = (.next t, outs) ∧
      t.ctl = .waitingForFrame ∧ (outs.filterMap Output.tx, t.board) = s.conversation requests
end

