-- ==== Sys2Proof/Laws/Encode.lean ====
section
/-! SUPPORT. What the operand forms, the unstuffing and the stuffing do. -/

namespace Sys2Proof.Machine

theorem payloadOf_bytes (p : Payload) :
    payloadOf (p.extractLsb' 24 8) (p.extractLsb' 16 8) (p.extractLsb' 8 8) (p.extractLsb' 0 8) = p := by
  have or8 : ∀ a b : Nat, b < 2 ^ 8 → a * 2 ^ 8 ||| b = a * 2 ^ 8 + b := fun a b hb => by
    rw [Nat.mul_comm, Nat.two_pow_add_eq_or_of_lt hb]
  apply BitVec.eq_of_toNat_eq
  simp only [payloadOf, BitVec.toNat_append, BitVec.extractLsb'_toNat, Nat.shiftLeft_eq, Nat.shiftRight_eq_div_pow]
  have := p.isLt
  rw [or8, or8, or8] <;> omega

/-- The bytes of a reassembled payload are the bytes it was made of (rule R62). -/
theorem bytes_payloadOf (d2 d3 d4 d5 : Byte) :
    (payloadOf d2 d3 d4 d5).extractLsb' 24 8 = d2 ∧ (payloadOf d2 d3 d4 d5).extractLsb' 16 8 = d3 ∧
    (payloadOf d2 d3 d4 d5).extractLsb' 8 8 = d4 ∧ (payloadOf d2 d3 d4 d5).extractLsb' 0 8 = d5 := by
  have or8 : ∀ a b : Nat, b < 2 ^ 8 → a * 2 ^ 8 ||| b = a * 2 ^ 8 + b := fun a b hb => by
    rw [Nat.mul_comm, Nat.two_pow_add_eq_or_of_lt hb]
  have h2 := d2.isLt
  have h3 := d3.isLt
  have h4 := d4.isLt
  have h5 := d5.isLt
  refine ⟨?_, ?_, ?_, ?_⟩ <;>
  · apply BitVec.eq_of_toNat_eq
    simp only [payloadOf, BitVec.toNat_append, BitVec.extractLsb'_toNat, Nat.shiftLeft_eq, Nat.shiftRight_eq_div_pow]
    rw [or8, or8, or8] <;> omega

theorem special_iff {cfg : Config} {b : Byte} :
    special cfg b = true ↔ b = cfg.start ∨ b = cfg.stop ∨ b = cfg.esc := by
  simp [special, or_assoc]

theorem stuff_of_special {cfg : Config} {v : Byte} (h : special cfg v = true) :
    stuff cfg v = [cfg.esc, v ^^^ cfg.mask] := by simp [stuff, h]

theorem stuff_of_plain {cfg : Config} {v : Byte} (h : special cfg v = false) : stuff cfg v = [v] := by simp [stuff, h]

theorem xor_mask_twice (v m : Byte) : v ^^^ m ^^^ m = v := by simp

/-- The image of a special byte is not special (rule R6 item 2). -/
theorem image_not_special {cfg : Config} (h : cfg.wf) {v : Byte} (hv : special cfg v = true) :
    special cfg (v ^^^ cfg.mask) = false := by
  obtain rfl | rfl | rfl := special_iff.1 hv
  exacts [h.2.2.2.1, h.2.2.2.2.1, h.2.2.2.2.2.1]

theorem not_special {cfg : Config} {b : Byte} (h : special cfg b = false) :
    b ≠ cfg.start ∧ b ≠ cfg.stop ∧ b ≠ cfg.esc := by
  refine ⟨?_, ?_, ?_⟩ <;> rintro rfl <;> simp [special] at h

end Sys2Proof.Machine

namespace Sys2Proof

open Machine

/-- Unstuffing undoes stuffing (rule R64). -/
theorem takeByte_stuff {cfg : Config} (h : cfg.wf) (v : Byte) (rest : List Byte) :
    takeByte cfg (stuff cfg v ++ rest) = .ok (v, rest) := by
  cases hv : special cfg v with
  | false =>
    obtain ⟨h1, h2, h3⟩ := not_special hv
    simp [stuff_of_plain hv, takeByte, h1, h2, h3]
  | true =>
    obtain ⟨h1, h2, -⟩ := not_special (image_not_special h hv)
    have e1 : cfg.esc ≠ cfg.start := fun e => h.2.1 e.symm
    have e2 : cfg.esc ≠ cfg.stop := fun e => h.2.2.1 e.symm
    simp [stuff_of_special hv, takeByte, h1, h2, e1, e2, hv]

/-- What unstuffing took was stuffed so (rule R71). -/
theorem takeByte_ok {cfg : Config} {bs rest : List Byte} {v : Byte} (h : takeByte cfg bs = .ok (v, rest)) :
    bs = stuff cfg v ++ rest := by
  unfold takeByte at h
  split at h
  · simp at h
  · rename_i b tl
    split at h
    · simp at h
    · split at h
      · simp at h
      · split at h
        · split at h
          · simp at h
          · rename_i m tl' _
            split at h
            · simp at h
            · split at h
              · simp at h
              · split at h
                · rename_i hs
                  simp only [Except.ok.injEq, Prod.mk.injEq] at h
                  obtain ⟨rfl, rfl⟩ := h
                  simp [stuff_of_special hs, *]
                · simp at h
        · rename_i h1 h2 h3
          simp only [Except.ok.injEq, Prod.mk.injEq] at h
          obtain ⟨rfl, rfl⟩ := h
          have : special cfg b = false := by simp [special, h1, h2, h3]
          simp [stuff_of_plain this]

theorem takeBytes_stuff {cfg : Config} (h : cfg.wf) (vs rest : List Byte) :
    takeBytes cfg vs.length (vs.flatMap (stuff cfg) ++ rest) = .ok (vs, rest) := by
  induction vs with
  | nil => rfl
  | cons v vs ih => simp [takeBytes, List.append_assoc, takeByte_stuff h, ih]

theorem takeBytes_ok {cfg : Config} {n : Nat} {bs vs rest : List Byte} (h : takeBytes cfg n bs = .ok (vs, rest)) :
    vs.length = n ∧ bs = vs.flatMap (stuff cfg) ++ rest := by
  induction n generalizing bs vs with
  | zero => simp [takeBytes] at h; simp [h]
  | succ n ih =>
    simp only [takeBytes] at h
    split at h
    · simp at h
    · rename_i v tl hv
      split at h
      · simp at h
      · rename_i ws tl' hws
        simp only [Except.ok.injEq, Prod.mk.injEq] at h
        obtain ⟨rfl, rfl⟩ := h
        obtain ⟨hl, hb⟩ := ih hws
        simp [takeByte_ok hv, hb, hl]

@[simp] theorem body_length (a c : Byte) (p : Payload) : (body a c p).length = 6 := rfl

@[simp] theorem stuff_length (cfg : Config) (v : Byte) :
    (stuff cfg v).length = if special cfg v then 2 else 1 := by unfold stuff; split <;> rfl

end Sys2Proof
end

