-- ==== Sys2Proof/Laws/State.lean ====
section
/-! SUPPORT. What each update of the state does to each field, by `rfl`. -/

namespace Sys2Proof.Machine

/-! ### `State.takeRx` -/

@[simp] theorem State.takeRx_cfg (s : State) (r : Rx × RxResult) :
    (s.takeRx r).cfg = s.cfg := rfl
@[simp] theorem State.takeRx_ctl (s : State) (r : Rx × RxResult) :
    (s.takeRx r).ctl = s.ctl := rfl
@[simp] theorem State.takeRx_bootErr (s : State) (r : Rx × RxResult) :
    (s.takeRx r).bootErr = s.bootErr := rfl
@[simp] theorem State.takeRx_dt (s : State) (r : Rx × RxResult) :
    (s.takeRx r).dt = s.dt := rfl
@[simp] theorem State.takeRx_rx (s : State) (r : Rx × RxResult) :
    (s.takeRx r).rx = r.1 := rfl
@[simp] theorem State.takeRx_reqCmd (s : State) (r : Rx × RxResult) :
    (s.takeRx r).reqCmd = s.reqCmd := rfl
@[simp] theorem State.takeRx_reqPayload (s : State) (r : Rx × RxResult) :
    (s.takeRx r).reqPayload = s.reqPayload := rfl
@[simp] theorem State.takeRx_respPayload (s : State) (r : Rx × RxResult) :
    (s.takeRx r).respPayload = s.respPayload := rfl
@[simp] theorem State.takeRx_lastOutcome (s : State) (r : Rx × RxResult) :
    (s.takeRx r).lastOutcome = s.lastOutcome := rfl
@[simp] theorem State.takeRx_txBuf (s : State) (r : Rx × RxResult) :
    (s.takeRx r).txBuf = s.txBuf := rfl
@[simp] theorem State.takeRx_txLen (s : State) (r : Rx × RxResult) :
    (s.takeRx r).txLen = s.txLen := rfl
@[simp] theorem State.takeRx_txIdx (s : State) (r : Rx × RxResult) :
    (s.takeRx r).txIdx = s.txIdx := rfl
@[simp] theorem State.takeRx_board (s : State) (r : Rx × RxResult) :
    (s.takeRx r).board = s.board := rfl
@[simp] theorem State.takeRx_pending (s : State) (r : Rx × RxResult) :
    (s.takeRx r).pending = s.pending := rfl
@[simp] theorem State.takeRx_out (s : State) (r : Rx × RxResult) :
    (s.takeRx r).out = Output.ofRx r.2 := rfl

/-! ### `State.accept` -/

@[simp] theorem State.accept_cfg (s : State) (t : Transaction) :
    (s.accept t).cfg = s.cfg := rfl
@[simp] theorem State.accept_ctl (s : State) (t : Transaction) :
    (s.accept t).ctl = .dispatching := rfl
@[simp] theorem State.accept_bootErr (s : State) (t : Transaction) :
    (s.accept t).bootErr = s.bootErr := rfl
@[simp] theorem State.accept_dt (s : State) (t : Transaction) :
    (s.accept t).dt = s.dt := rfl
@[simp] theorem State.accept_rx (s : State) (t : Transaction) :
    (s.accept t).rx = s.rx := rfl
@[simp] theorem State.accept_reqCmd (s : State) (t : Transaction) :
    (s.accept t).reqCmd = t.cmd := rfl
@[simp] theorem State.accept_reqPayload (s : State) (t : Transaction) :
    (s.accept t).reqPayload = t.payload := rfl
@[simp] theorem State.accept_respPayload (s : State) (t : Transaction) :
    (s.accept t).respPayload = s.respPayload := rfl
@[simp] theorem State.accept_lastOutcome (s : State) (t : Transaction) :
    (s.accept t).lastOutcome = s.lastOutcome := rfl
@[simp] theorem State.accept_txBuf (s : State) (t : Transaction) :
    (s.accept t).txBuf = s.txBuf := rfl
@[simp] theorem State.accept_txLen (s : State) (t : Transaction) :
    (s.accept t).txLen = s.txLen := rfl
@[simp] theorem State.accept_txIdx (s : State) (t : Transaction) :
    (s.accept t).txIdx = s.txIdx := rfl
@[simp] theorem State.accept_board (s : State) (t : Transaction) :
    (s.accept t).board = s.board := rfl
@[simp] theorem State.accept_pending (s : State) (t : Transaction) :
    (s.accept t).pending = s.pending := rfl
@[simp] theorem State.accept_out (s : State) (t : Transaction) :
    (s.accept t).out = s.out := rfl

/-! ### `State.abort` -/

@[simp] theorem State.abort_cfg (s : State) (e : BootError) :
    (s.abort e).cfg = s.cfg := rfl
@[simp] theorem State.abort_ctl (s : State) (e : BootError) :
    (s.abort e).ctl = .halted := rfl
@[simp] theorem State.abort_bootErr (s : State) (e : BootError) :
    (s.abort e).bootErr = some e := rfl
@[simp] theorem State.abort_dt (s : State) (e : BootError) :
    (s.abort e).dt = s.dt := rfl
@[simp] theorem State.abort_rx (s : State) (e : BootError) :
    (s.abort e).rx = s.rx := rfl
@[simp] theorem State.abort_reqCmd (s : State) (e : BootError) :
    (s.abort e).reqCmd = s.reqCmd := rfl
@[simp] theorem State.abort_reqPayload (s : State) (e : BootError) :
    (s.abort e).reqPayload = s.reqPayload := rfl
@[simp] theorem State.abort_respPayload (s : State) (e : BootError) :
    (s.abort e).respPayload = s.respPayload := rfl
@[simp] theorem State.abort_lastOutcome (s : State) (e : BootError) :
    (s.abort e).lastOutcome = s.lastOutcome := rfl
@[simp] theorem State.abort_txBuf (s : State) (e : BootError) :
    (s.abort e).txBuf = s.txBuf := rfl
@[simp] theorem State.abort_txLen (s : State) (e : BootError) :
    (s.abort e).txLen = s.txLen := rfl
@[simp] theorem State.abort_txIdx (s : State) (e : BootError) :
    (s.abort e).txIdx = s.txIdx := rfl
@[simp] theorem State.abort_board (s : State) (e : BootError) :
    (s.abort e).board = s.board := rfl
@[simp] theorem State.abort_pending (s : State) (e : BootError) :
    (s.abort e).pending = s.pending := rfl
@[simp] theorem State.abort_out (s : State) (e : BootError) :
    (s.abort e).out = s.out := rfl

/-! ### `State.respond` -/

@[simp] theorem State.respond_cfg (s : State) (r : HandlerResult) :
    (s.respond r).cfg = s.cfg := rfl
@[simp] theorem State.respond_ctl (s : State) (r : HandlerResult) :
    (s.respond r).ctl = s.ctl := rfl
@[simp] theorem State.respond_bootErr (s : State) (r : HandlerResult) :
    (s.respond r).bootErr = s.bootErr := rfl
@[simp] theorem State.respond_dt (s : State) (r : HandlerResult) :
    (s.respond r).dt = s.dt := rfl
@[simp] theorem State.respond_rx (s : State) (r : HandlerResult) :
    (s.respond r).rx = s.rx := rfl
@[simp] theorem State.respond_reqCmd (s : State) (r : HandlerResult) :
    (s.respond r).reqCmd = s.reqCmd := rfl
@[simp] theorem State.respond_reqPayload (s : State) (r : HandlerResult) :
    (s.respond r).reqPayload = s.reqPayload := rfl
@[simp] theorem State.respond_respPayload (s : State) (r : HandlerResult) :
    (s.respond r).respPayload = r.resp := rfl
@[simp] theorem State.respond_lastOutcome (s : State) (r : HandlerResult) :
    (s.respond r).lastOutcome = r.outcome := rfl
@[simp] theorem State.respond_txBuf (s : State) (r : HandlerResult) :
    (s.respond r).txBuf = s.txBuf := rfl
@[simp] theorem State.respond_txLen (s : State) (r : HandlerResult) :
    (s.respond r).txLen = s.txLen := rfl
@[simp] theorem State.respond_txIdx (s : State) (r : HandlerResult) :
    (s.respond r).txIdx = s.txIdx := rfl
@[simp] theorem State.respond_board (s : State) (r : HandlerResult) :
    (s.respond r).board = r.board := rfl
@[simp] theorem State.respond_pending (s : State) (r : HandlerResult) :
    (s.respond r).pending = s.pending := rfl
@[simp] theorem State.respond_out (s : State) (r : HandlerResult) :
    (s.respond r).out = Output.ofOutcome r.outcome := rfl

/-! ### `State.loadReply` -/

@[simp] theorem State.loadReply_cfg (s : State) (c : Byte) :
    (s.loadReply c).cfg = s.cfg := rfl
@[simp] theorem State.loadReply_ctl (s : State) (c : Byte) :
    (s.loadReply c).ctl = .replying := rfl
@[simp] theorem State.loadReply_bootErr (s : State) (c : Byte) :
    (s.loadReply c).bootErr = s.bootErr := rfl
@[simp] theorem State.loadReply_dt (s : State) (c : Byte) :
    (s.loadReply c).dt = s.dt := rfl
@[simp] theorem State.loadReply_rx (s : State) (c : Byte) :
    (s.loadReply c).rx = s.rx := rfl
@[simp] theorem State.loadReply_reqCmd (s : State) (c : Byte) :
    (s.loadReply c).reqCmd = s.reqCmd := rfl
@[simp] theorem State.loadReply_reqPayload (s : State) (c : Byte) :
    (s.loadReply c).reqPayload = s.reqPayload := rfl
@[simp] theorem State.loadReply_respPayload (s : State) (c : Byte) :
    (s.loadReply c).respPayload = s.respPayload := rfl
@[simp] theorem State.loadReply_lastOutcome (s : State) (c : Byte) :
    (s.loadReply c).lastOutcome = s.lastOutcome := rfl
@[simp] theorem State.loadReply_txBuf (s : State) (c : Byte) :
    (s.loadReply c).txBuf = encode s.cfg s.cfg.myAddr c s.respPayload := rfl
@[simp] theorem State.loadReply_txLen (s : State) (c : Byte) :
    (s.loadReply c).txLen = (encode s.cfg s.cfg.myAddr c s.respPayload).length := rfl
@[simp] theorem State.loadReply_txIdx (s : State) (c : Byte) :
    (s.loadReply c).txIdx = 0 := rfl
@[simp] theorem State.loadReply_board (s : State) (c : Byte) :
    (s.loadReply c).board = s.board := rfl
@[simp] theorem State.loadReply_pending (s : State) (c : Byte) :
    (s.loadReply c).pending = s.pending := rfl
@[simp] theorem State.loadReply_out (s : State) (c : Byte) :
    (s.loadReply c).out = s.out := rfl

/-! ### `State.sendByte` -/

@[simp] theorem State.sendByte_cfg (s : State) (b : Byte) :
    (s.sendByte b).cfg = s.cfg := rfl
@[simp] theorem State.sendByte_ctl (s : State) (b : Byte) :
    (s.sendByte b).ctl = if s.txIdx + 1 = s.txLen then .waitingForFrame else s.ctl := rfl
@[simp] theorem State.sendByte_bootErr (s : State) (b : Byte) :
    (s.sendByte b).bootErr = s.bootErr := rfl
@[simp] theorem State.sendByte_dt (s : State) (b : Byte) :
    (s.sendByte b).dt = s.dt := rfl
@[simp] theorem State.sendByte_rx (s : State) (b : Byte) :
    (s.sendByte b).rx = s.rx := rfl
@[simp] theorem State.sendByte_reqCmd (s : State) (b : Byte) :
    (s.sendByte b).reqCmd = s.reqCmd := rfl
@[simp] theorem State.sendByte_reqPayload (s : State) (b : Byte) :
    (s.sendByte b).reqPayload = s.reqPayload := rfl
@[simp] theorem State.sendByte_respPayload (s : State) (b : Byte) :
    (s.sendByte b).respPayload = s.respPayload := rfl
@[simp] theorem State.sendByte_lastOutcome (s : State) (b : Byte) :
    (s.sendByte b).lastOutcome = s.lastOutcome := rfl
@[simp] theorem State.sendByte_txBuf (s : State) (b : Byte) :
    (s.sendByte b).txBuf = s.txBuf := rfl
@[simp] theorem State.sendByte_txLen (s : State) (b : Byte) :
    (s.sendByte b).txLen = s.txLen := rfl
@[simp] theorem State.sendByte_txIdx (s : State) (b : Byte) :
    (s.sendByte b).txIdx = s.txIdx + 1 := rfl
@[simp] theorem State.sendByte_board (s : State) (b : Byte) :
    (s.sendByte b).board = s.board := rfl
@[simp] theorem State.sendByte_pending (s : State) (b : Byte) :
    (s.sendByte b).pending = s.pending := rfl
@[simp] theorem State.sendByte_out (s : State) (b : Byte) :
    (s.sendByte b).out = Output.ofTx b := rfl

/-! ### `State.begin` -/

@[simp] theorem State.begin_cfg (s : State) :
    (s.begin).cfg = s.cfg := rfl
@[simp] theorem State.begin_ctl (s : State) :
    (s.begin).ctl = s.ctl := rfl
@[simp] theorem State.begin_bootErr (s : State) :
    (s.begin).bootErr = s.bootErr := rfl
@[simp] theorem State.begin_dt (s : State) :
    (s.begin).dt = s.dt := rfl
@[simp] theorem State.begin_rx (s : State) :
    (s.begin).rx = s.rx := rfl
@[simp] theorem State.begin_reqCmd (s : State) :
    (s.begin).reqCmd = s.reqCmd := rfl
@[simp] theorem State.begin_reqPayload (s : State) :
    (s.begin).reqPayload = s.reqPayload := rfl
@[simp] theorem State.begin_respPayload (s : State) :
    (s.begin).respPayload = s.respPayload := rfl
@[simp] theorem State.begin_lastOutcome (s : State) :
    (s.begin).lastOutcome = s.lastOutcome := rfl
@[simp] theorem State.begin_txBuf (s : State) :
    (s.begin).txBuf = s.txBuf := rfl
@[simp] theorem State.begin_txLen (s : State) :
    (s.begin).txLen = s.txLen := rfl
@[simp] theorem State.begin_txIdx (s : State) :
    (s.begin).txIdx = s.txIdx := rfl
@[simp] theorem State.begin_board (s : State) :
    (s.begin).board = s.board := rfl
@[simp] theorem State.begin_pending (s : State) :
    (s.begin).pending = s.pending.tail := rfl
@[simp] theorem State.begin_out (s : State) :
    (s.begin).out = Output.silent := rfl

/-! ### `State.resetOf` -/

@[simp] theorem State.resetOf_cfg (cfg : Config) (es : List Event) :
    (State.resetOf cfg es).cfg = cfg := rfl
@[simp] theorem State.resetOf_ctl (cfg : Config) (es : List Event) :
    (State.resetOf cfg es).ctl = .registering := rfl
@[simp] theorem State.resetOf_bootErr (cfg : Config) (es : List Event) :
    (State.resetOf cfg es).bootErr = none := rfl
@[simp] theorem State.resetOf_dt (cfg : Config) (es : List Event) :
    (State.resetOf cfg es).dt = [] := rfl
@[simp] theorem State.resetOf_rx (cfg : Config) (es : List Event) :
    (State.resetOf cfg es).rx = Rx.reset := rfl
@[simp] theorem State.resetOf_reqCmd (cfg : Config) (es : List Event) :
    (State.resetOf cfg es).reqCmd = 0 := rfl
@[simp] theorem State.resetOf_reqPayload (cfg : Config) (es : List Event) :
    (State.resetOf cfg es).reqPayload = 0 := rfl
@[simp] theorem State.resetOf_respPayload (cfg : Config) (es : List Event) :
    (State.resetOf cfg es).respPayload = 0 := rfl
@[simp] theorem State.resetOf_lastOutcome (cfg : Config) (es : List Event) :
    (State.resetOf cfg es).lastOutcome = .ok := rfl
@[simp] theorem State.resetOf_txBuf (cfg : Config) (es : List Event) :
    (State.resetOf cfg es).txBuf = [] := rfl
@[simp] theorem State.resetOf_txLen (cfg : Config) (es : List Event) :
    (State.resetOf cfg es).txLen = 0 := rfl
@[simp] theorem State.resetOf_txIdx (cfg : Config) (es : List Event) :
    (State.resetOf cfg es).txIdx = 0 := rfl
@[simp] theorem State.resetOf_board (cfg : Config) (es : List Event) :
    (State.resetOf cfg es).board = cfg.bs0 := rfl
@[simp] theorem State.resetOf_pending (cfg : Config) (es : List Event) :
    (State.resetOf cfg es).pending = es := rfl
@[simp] theorem State.resetOf_out (cfg : Config) (es : List Event) :
    (State.resetOf cfg es).out = Output.silent := rfl

/-! ### Receive registers -/

@[simp] theorem Rx.frameStart_state (rx : Rx) : rx.frameStart.state = .inFrame := rfl
@[simp] theorem Rx.frameStart_cnt (rx : Rx) : rx.frameStart.cnt = 0 := rfl
@[simp] theorem Rx.frameStart_buf (rx : Rx) : rx.frameStart.buf = rx.buf := rfl
@[simp] theorem Rx.frameStart_xor (rx : Rx) : rx.frameStart.xor = 0 := rfl
@[simp] theorem Rx.frameStart_csum (rx : Rx) : rx.frameStart.csum = rx.csum := rfl

@[simp] theorem Rx.reset_state : Rx.reset.state = .idle := rfl
@[simp] theorem Rx.reset_cnt : Rx.reset.cnt = 0 := rfl
@[simp] theorem Rx.reset_buf : Rx.reset.buf = ⟨0, 0, 0, 0, 0, 0⟩ := rfl
@[simp] theorem Rx.reset_xor : Rx.reset.xor = 0 := rfl
@[simp] theorem Rx.reset_csum : Rx.reset.csum = 0 := rfl

end Sys2Proof.Machine
end

