-- ==== Sys2Proof/Laws/Ops.lean ====
section
/-! SUPPORT. What each shared operation can do, said once: the hand-off, raising an error, the multiplexer, and the four
command frames in the control states they meet. -/

namespace Sys2Proof.Machine

/-- The hand-off changes nothing but the decoder's registers, the output, and, on acceptance, `ctl` and the request. -/
theorem State.handOff_cases (s : State) (r : Rx × RxResult) :
    s.handOff r = s.takeRx r ∨
    ∃ t, r.2 = .frameOk t ∧ t.addr = s.cfg.myAddr ∧ s.handOff r = (s.takeRx r).accept t := by
  unfold State.handOff
  split
  · rename_i t ht
    split
    · rename_i ha
      exact .inr ⟨t, ht, ha, rfl⟩
    · exact .inl rfl
  · exact .inl rfl

/-- A result that is no valid frame is not acted on (rule R207). -/
theorem State.handOff_of_no_frame (s : State) (r : Rx × RxResult) (h : ∀ t, r.2 ≠ .frameOk t) :
    s.handOff r = s.takeRx r := by
  rcases s.handOff_cases r with h' | ⟨t, ht, -⟩
  · exact h'
  · exact absurd ht (h t)

/-- Acceptance (rule R161). -/
theorem State.handOff_mine (s : State) (rx : Rx) (t : Transaction) (h : t.addr = s.cfg.myAddr) :
    s.handOff (rx, .frameOk t) = (s.takeRx (rx, .frameOk t)).accept t := by simp [State.handOff, h]

/-- The address filter (rule R162). -/
theorem State.handOff_foreign (s : State) (rx : Rx) (t : Transaction) (h : t.addr ≠ s.cfg.myAddr) :
    s.handOff (rx, .frameOk t) = s.takeRx (rx, .frameOk t) := by simp [State.handOff, h]

/-- After a transport error the decoder is in `Idle` or at the start of a new frame (rules R201, R202). -/
theorem Rx.raise_cases (e : RxError) (rx : Rx) :
    (e ≠ .cutByStart ∧ rx.raise e = ({ rx with state := .idle }, e.result)) ∨
    (e = .cutByStart ∧ rx.raise e = (rx.frameStart, .frameTooShort)) := by
  cases e
  · exact .inl ⟨by decide, rfl⟩
  · exact .inl ⟨by decide, rfl⟩
  · exact .inr ⟨rfl, rfl⟩

/-- Validation at `END` (rule R110). -/
theorem Rx.finish_eq (rx : Rx) (t : Transaction) (k : Byte) :
    rx.finish t k = ({ rx with state := .idle }, if k = rx.xor then .frameOk t else .frameCorrupt) := by
  unfold Rx.finish
  split <;> rfl

/-- `take_body` (rule R113). -/
theorem Rx.takeBody_eq_some {rx rx' : Rx} {v : Byte} :
    rx.takeBody v = some rx' ↔ rx.cnt ≤ 5 ∧
      rx' = ⟨if rx.cnt + 1 = 6 then .expectChecksum else .inFrame, rx.cnt + 1, rx.buf.put rx.cnt v, rx.xor ^^^ v,
        rx.csum⟩ := by
  unfold Rx.takeBody
  split <;> simp_all [eq_comm]

/-- The multiplexer (rules R146, R150): the selected result is written and the reply to `c` is loaded. -/
theorem State.dispatch_eq (s : State) (c : Byte) (p : Payload) :
    s.dispatch c p = (s.respond (match DispatchTable.find s.dt c with
      | some h => HandlerRef.run h c p s.board
      | none => ⟨0, .unknownCommand, s.board⟩)).loadReply c := by
  unfold State.dispatch
  cases DispatchTable.find s.dt c <;> rfl

/-- Every command frame at its `END` byte (rules R110, R161, R162). -/
theorem exec_waiting (i : Instr) {s : State} (h : s.ctl = .waitingForFrame) :
    exec i s = .next (s.handOff (s.rx.finish ⟨i.addr, i.id, i.payload⟩ i.csum)) := by
  cases i <;> simp only [exec, execEstop, execCmd, execUnknown, execSpin0, State.command, h, State.receive, Instr.addr,
    Instr.id, Instr.payload, Instr.csum]

/-- Every accepted command frame (rule R146). -/
theorem exec_dispatching (i : Instr) {s : State} (h : s.ctl = .dispatching) :
    exec i s = .next (s.dispatch i.id i.payload) := by
  cases i <;> simp only [exec, execEstop, execCmd, execUnknown, execSpin0, State.command, h, Instr.id, Instr.payload]

/-- Classifying a frame drops none of its fields (rule R72). -/
theorem classify_fields (bound : Byte → Bool) (f : Fields) : (classify bound f).fields = f := by
  obtain ⟨a, c, p, k⟩ := f
  simp only [classify]
  split
  · rename_i h
    subst h
    rfl
  · split
    · split
      · rename_i h
        subst h
        rfl
      · rfl
    · rfl

theorem classify_addr (bound : Byte → Bool) (f : Fields) : (classify bound f).addr = f.addr :=
  congrArg Fields.addr (classify_fields bound f)

theorem classify_id (bound : Byte → Bool) (f : Fields) : (classify bound f).id = f.id :=
  congrArg Fields.id (classify_fields bound f)

theorem classify_payload (bound : Byte → Bool) (f : Fields) : (classify bound f).payload = f.payload :=
  congrArg Fields.payload (classify_fields bound f)

theorem classify_csum (bound : Byte → Bool) (f : Fields) : (classify bound f).csum = f.csum :=
  congrArg Fields.csum (classify_fields bound f)

end Sys2Proof.Machine
end

