-- ==== Sys2Proof/Laws/Receive.lean ====
section
/-! SUPPORT. What the decoder can do: one step, a run, and a run over stuffed body bytes. -/

namespace Sys2Proof.Machine

/-- The registers after body byte `v` was taken (rule R113). -/
def Rx.taken (rx : Rx) (v : Byte) : Rx :=
  ⟨if rx.cnt + 1 = 6 then .expectChecksum else .inFrame, rx.cnt + 1, rx.buf.put rx.cnt v, rx.xor ^^^ v, rx.csum⟩

theorem Rx.takeBody_of_le {rx : Rx} (h : rx.cnt ≤ 5) (v : Byte) : rx.takeBody v = some (rx.taken v) :=
  Rx.takeBody_eq_some.2 ⟨h, rfl⟩

/-- The steps of the decoder: every way `rx_step` can go on (rules R101 to R112, R122). -/
inductive RxMove (cfg : Config) (rx : Rx) (b : Byte) : Rx → RxResult → Prop where
  | opened (hs : rx.state = .idle) (hb : b = cfg.start) : RxMove cfg rx b rx.frameStart .needMore
  | noise (hs : rx.state = .idle) (hb : b ≠ cfg.start) : RxMove cfg rx b rx .needMore
  | cut (hs : rx.state ≠ .idle) (hb : b = cfg.start) (hc : rx.state = .expectChecksum → rx.cnt = 7) :
      RxMove cfg rx b rx.frameStart .frameTooShort
  | short (hs : rx.state ≠ .idle) (hc : rx.state = .expectChecksum → rx.cnt = 7 ∧ b ≠ cfg.stop)
      (hb : rx.state ≠ .expectChecksum → b = cfg.stop) :
      RxMove cfg rx b { rx with state := .idle } .frameTooShort
  | escape (hs : rx.state = .inFrame) (hb : b = cfg.esc) : RxMove cfg rx b { rx with state := .escaped } .needMore
  | plain (hs : rx.state = .inFrame) (hb : special cfg b = false) (hc : rx.cnt ≤ 5) :
      RxMove cfg rx b (rx.taken b) .needMore
  | image (hs : rx.state = .escaped) (hb : special cfg (b ^^^ cfg.mask) = true) (hc : rx.cnt ≤ 5) :
      RxMove cfg rx b (rx.taken (b ^^^ cfg.mask)) .needMore
  | badPair (hs : rx.state = .escaped) (hb : special cfg (b ^^^ cfg.mask) = false) :
      RxMove cfg rx b { rx with state := .idle } .frameCorrupt
  | latch (hs : rx.state = .expectChecksum) (hc : rx.cnt = 6) :
      RxMove cfg rx b { rx with csum := b, cnt := 7 } .needMore
  | ok (hs : rx.state = .expectChecksum) (hc : rx.cnt = 7) (hb : b = cfg.stop) (hx : rx.csum = rx.xor) :
      RxMove cfg rx b { rx with state := .idle } (.frameOk rx.record)
  | corrupt (hs : rx.state = .expectChecksum) (hc : rx.cnt = 7) (hb : b = cfg.stop) (hx : rx.csum ≠ rx.xor) :
      RxMove cfg rx b { rx with state := .idle } .frameCorrupt

theorem Rx.move_of_step {cfg : Config} {rx rx' : Rx} {b : Byte} {r : RxResult}
    (h : rx.step cfg b = some (rx', r)) : RxMove cfg rx b rx' r := by
  unfold Rx.step at h
  split at h
  · rename_i hs
    simp only [Option.some.injEq, Prod.mk.injEq] at h
    obtain ⟨rfl, rfl⟩ := h
    split
    · rename_i hb; exact .opened hs hb
    · rename_i hb; exact .noise hs hb
  · rename_i hs
    unfold Rx.stepInFrame at h
    split at h
    · rename_i hb
      simp only [Option.some.injEq] at h
      cases h
      exact .cut (by simp [hs]) hb (by simp [hs])
    · rename_i h1
      split at h
      · rename_i hb
        simp only [Option.some.injEq] at h
        cases h
        exact .short (by simp [hs]) (by simp [hs]) (fun _ => hb)
      · rename_i h2
        split at h
        · rename_i hb
          simp only [Option.some.injEq, Prod.mk.injEq] at h
          obtain ⟨rfl, rfl⟩ := h
          exact .escape hs hb
        · rename_i h3
          simp only [Option.map_eq_some_iff, Prod.mk.injEq] at h
          obtain ⟨a, ha, rfl, rfl⟩ := h
          obtain ⟨hc, rfl⟩ := Rx.takeBody_eq_some.1 ha
          exact .plain hs (by simp [special, h1, h2, h3]) hc
  · rename_i hs
    unfold Rx.stepEscaped at h
    split at h
    · rename_i hb
      simp only [Option.some.injEq] at h
      cases h
      exact .cut (by simp [hs]) hb (by simp [hs])
    · split at h
      · rename_i hb
        simp only [Option.some.injEq] at h
        cases h
        exact .short (by simp [hs]) (by simp [hs]) (fun _ => hb)
      · split at h
        · rename_i hb
          simp only [Option.map_eq_some_iff, Prod.mk.injEq] at h
          obtain ⟨a, ha, rfl, rfl⟩ := h
          obtain ⟨hc, rfl⟩ := Rx.takeBody_eq_some.1 ha
          exact .image hs hb hc
        · rename_i hb
          simp only [Option.some.injEq] at h
          cases h
          exact .badPair hs (by simpa using hb)
  · rename_i hs
    unfold Rx.stepChecksum at h
    split at h
    · rename_i hc
      simp only [Option.some.injEq, Prod.mk.injEq] at h
      obtain ⟨rfl, rfl⟩ := h
      exact .latch hs hc
    · split at h
      · rename_i hc
        split at h
        · rename_i hb
          rw [Rx.finish_eq] at h
          simp only [Option.some.injEq, Prod.mk.injEq] at h
          obtain ⟨rfl, rfl⟩ := h
          split
          · rename_i hx; exact .ok hs hc hb hx
          · rename_i hx; exact .corrupt hs hc hb hx
        · rename_i h1
          split at h
          · rename_i hb
            simp only [Option.some.injEq] at h
            cases h
            exact .cut (by simp [hs]) hb (fun _ => hc)
          · simp only [Option.some.injEq] at h
            cases h
            exact .short (by simp [hs]) (fun _ => ⟨hc, h1⟩) (fun h => absurd hs h)
      · simp at h

/-- The running XOR of rule R32 item 3 after one more byte. -/
theorem RxBuf.xorFirst_put (buf : RxBuf) {n : Nat} (h : n ≤ 5) (v : Byte) :
    (buf.put n v).xorFirst (n + 1) = buf.xorFirst n ^^^ v := by
  interval_cases n <;> simp [RxBuf.xorFirst, RxBuf.put, RxBuf.toList]

/-- The decoder goes on from every state rule R32 allows (rule R100). -/
theorem Rx.step_isSome {rx : Rx} (h : rx.Inv) (cfg : Config) (b : Byte) : (rx.step cfg b).isSome = true := by
  obtain ⟨h1, h2, -⟩ := h
  cases hs : rx.state with
  | idle => simp [Rx.step, hs]
  | inFrame =>
    have := Rx.takeBody_of_le (h1 (.inl hs)) b
    simp only [Rx.step, hs, Rx.stepInFrame, this]
    repeat' split
    all_goals rfl
  | escaped =>
    have := Rx.takeBody_of_le (h1 (.inr hs)) (b ^^^ cfg.mask)
    simp only [Rx.step, hs, Rx.stepEscaped, this]
    repeat' split
    all_goals rfl
  | expectChecksum =>
    rcases h2 hs with hc | hc <;> simp only [Rx.step, hs, Rx.stepChecksum, hc]
    · rfl
    · simp only [Nat.reduceEqDiff, if_false, if_true]
      repeat' split
      all_goals rfl

/-- Items 2 and 3 of rule R32 are kept by every step of the decoder. -/
theorem Rx.inv_step {cfg : Config} {rx rx' : Rx} {b : Byte} {r : RxResult} (h : rx.Inv)
    (hs : rx.step cfg b = some (rx', r)) : rx'.Inv := by
  obtain ⟨h1, h2, h3⟩ := h
  have htaken : ∀ v, rx.state ≠ .idle → rx.cnt ≤ 5 → (rx.taken v).Inv := by
    intro v hne hc
    refine ⟨?_, ?_, ?_⟩
    · intro hst
      simp only [Rx.taken] at hst ⊢
      split at hst
      · simp at hst
      · omega
    · intro hst
      simp only [Rx.taken] at hst ⊢
      split at hst
      · omega
      · simp at hst
    · intro _
      simp only [Rx.taken]
      rw [Nat.min_eq_left (by omega), RxBuf.xorFirst_put _ hc, h3 hne, Nat.min_eq_left (by omega)]
  have hidle : ({ rx with state := .idle } : Rx).Inv := ⟨by simp, by simp, by simp⟩
  have hstart : rx.frameStart.Inv := ⟨by simp, by simp, by simp [RxBuf.xorFirst]⟩
  cases Rx.move_of_step hs with
  | opened => exact hstart
  | noise => exact ⟨h1, h2, h3⟩
  | cut => exact hstart
  | short => exact hidle
  | escape hst => exact ⟨fun _ => h1 (.inl hst), by simp, fun _ => h3 (by simp [hst])⟩
  | plain hst _ hc => exact htaken _ (by simp [hst]) hc
  | image hst _ hc => exact htaken _ (by simp [hst]) hc
  | badPair => exact hidle
  | latch hst hc =>
    refine ⟨by simp [hst], by simp, fun _ => ?_⟩
    have := h3 (by simp [hst])
    simpa [hc] using this
  | ok => exact hidle
  | corrupt => exact hidle

theorem Rx.run_nil (cfg : Config) (rx : Rx) : rx.run cfg [] = some (rx, []) := rfl

theorem Rx.run_cons {cfg : Config} {rx rx' : Rx} {b : Byte} {r : RxResult} (h : rx.step cfg b = some (rx', r))
    (bs : List Byte) : rx.run cfg (b :: bs) = (rx'.run cfg bs).map fun q => (q.1, r :: q.2) := by
  simp only [Rx.run, h]

/-- A run over two pieces is the run over the first and then over the second. -/
theorem Rx.run_append {cfg : Config} {rx rx' rx'' : Rx} {xs ys : List Byte} {rs rs' : List RxResult}
    (h1 : rx.run cfg xs = some (rx', rs)) (h2 : rx'.run cfg ys = some (rx'', rs')) :
    rx.run cfg (xs ++ ys) = some (rx'', rs ++ rs') := by
  induction xs generalizing rx rs with
  | nil =>
    simp only [Rx.run, Option.some.injEq, Prod.mk.injEq] at h1
    obtain ⟨rfl, rfl⟩ := h1
    simpa using h2
  | cons b xs ih =>
    simp only [Rx.run] at h1
    split at h1
    · simp at h1
    · rename_i q r hq
      simp only [Option.map_eq_some_iff, Prod.mk.injEq] at h1
      obtain ⟨⟨q', rs''⟩, hrun, rfl, rfl⟩ := h1
      rw [List.cons_append, Rx.run_cons hq, ih hrun]
      rfl

/-- A stuffed body byte is taken as that byte (rules R104, R105, R108). -/
theorem Rx.run_stuff {cfg : Config} (hw : cfg.wf) {rx : Rx} (hs : rx.state = .inFrame) (hc : rx.cnt ≤ 5) (v : Byte) :
    rx.run cfg (stuff cfg v) = some (rx.taken v, List.replicate (stuff cfg v).length .needMore) := by
  cases hv : special cfg v with
  | false =>
    obtain ⟨h1, h2, h3⟩ := not_special hv
    have : rx.step cfg v = some (rx.taken v, .needMore) := by
      simp [Rx.step, hs, Rx.stepInFrame, h1, h2, h3, Rx.takeBody_of_le hc]
    rw [stuff_of_plain hv, Rx.run_cons this]
    rfl
  | true =>
    obtain ⟨h1, h2, -⟩ := not_special (image_not_special hw hv)
    have e1 : rx.step cfg cfg.esc = some ({ rx with state := .escaped }, .needMore) := by
      simp [Rx.step, hs, Rx.stepInFrame, hw.2.1.symm, hw.2.2.1.symm]
    have e2 : ({ rx with state := .escaped } : Rx).step cfg (v ^^^ cfg.mask) = some (rx.taken v, .needMore) := by
      have := Rx.takeBody_of_le (rx := { rx with state := .escaped }) hc v
      simp [Rx.step, Rx.stepEscaped, h1, h2, hv, this, Rx.taken]
    rw [stuff_of_special hv, Rx.run_cons e1, Rx.run_cons e2]
    rfl

end Sys2Proof.Machine
end

