-- ==== Sys2Proof/Laws/Step.lean ====
section
/-! SUPPORT. What one step can do, said once: the step of every event as one operation, and the inversion of `step`. -/

namespace Sys2Proof.Machine

/-- The event at the head of the queue comes next. -/
theorem State.nextEvent_cons {s : State} {e : Event} {rest : List Event} (h : s.pending = e :: rest) :
    s.nextEvent = some e := by simp [State.nextEvent, h]

/-- With the queue empty the block's own step comes next, if one is enabled (rule R245). -/
theorem State.nextEvent_nil {s : State} (h : s.pending = []) :
    s.nextEvent = match s.ctl with
      | .dispatching => some .dispatch
      | .replying => some .txByte
      | .registering => none
      | .waitingForFrame => none
      | .halted => none := by
  cases hc : s.ctl <;> simp [State.nextEvent, h, hc]

theorem step_of_event {s : State} {e : Event} (hw : s.cfg.wf) (he : s.nextEvent = some e) :
    step s = stepEvent e s.begin := by unfold step; rw [if_pos hw, he]

theorem step_of_none {s : State} (hw : s.cfg.wf) (he : s.nextEvent = none) : step s = .next s.begin := by
  unfold step; rw [if_pos hw, he]

/-- The `END` byte of a frame executes the received command, and that is what `RxByte` does there: whatever the byte, the
step of `RxByte(b)` is `rxByte b` (rules R100, R110). -/
theorem stepEvent_rxByte (b : Byte) (s : State) : stepEvent (.rxByte b) s = rxByte b s := by
  unfold stepEvent State.fetch State.frameAt
  dsimp only
  split
  · rename_i i hi
    split at hi
    · rename_i hc
      obtain ⟨hctl, hst, hcnt, rfl⟩ := hc
      simp only [Option.map_some, Option.some.injEq] at hi
      subst hi
      rw [exec_waiting _ hctl, classify_addr, classify_id, classify_payload, classify_csum]
      simp [rxByte, hctl, Rx.step, hst, Rx.stepChecksum, hcnt, State.receivedFields]
    · simp at hi
  · rfl

/-- `Dispatch` executes the accepted request (rule R146). -/
theorem stepEvent_dispatch (s : State) :
    stepEvent .dispatch s =
      .next (if s.ctl = .dispatching then s.dispatch s.reqCmd s.reqPayload else s) := by
  unfold stepEvent State.fetch State.frameAt
  dsimp only
  split
  · rename_i i hi
    split at hi
    · rename_i hc
      simp only [Option.map_some, Option.some.injEq] at hi
      subst hi
      rw [exec_dispatching _ hc, classify_id, classify_payload, if_pos hc]
      rfl
    · simp at hi
  · rename_i hn
    split at hn
    · simp at hn
    · rename_i hc
      rw [if_neg hc]
      rfl

@[simp] theorem stepEvent_reset (s : State) : stepEvent .reset s = .next (resetBlock s) := rfl
@[simp] theorem stepEvent_register (id : Byte) (h : HandlerRef) (s : State) :
    stepEvent (.register id h) s = .next (register id h s) := rfl
@[simp] theorem stepEvent_start (s : State) : stepEvent .start s = .next (start s) := rfl
@[simp] theorem stepEvent_rxTimeout (s : State) : stepEvent .rxTimeout s = .next (rxTimeout s) := rfl
@[simp] theorem stepEvent_controlStep (x : Sensors) (s : State) :
    stepEvent (.controlStep x) s = .next (controlStep x s) := rfl
@[simp] theorem stepEvent_txByte (s : State) : stepEvent .txByte s = txByte s := rfl

/-- What `RxByte` can do. -/
theorem rxByte_next {b : Byte} {s t : State} (h : rxByte b s = .next t) :
    (s.ctl ≠ .waitingForFrame ∧ t = s) ∨
    (s.ctl = .waitingForFrame ∧ ∃ r, s.rx.step s.cfg b = some r ∧ t = s.handOff r) := by
  unfold rxByte at h
  split at h
  · rename_i hc
    split at h
    · rename_i r hr
      simp only [Host.Outcome.next.injEq] at h
      exact .inr ⟨hc, r, hr, h.symm⟩
    · simp at h
  · rename_i hc
    simp only [Host.Outcome.next.injEq] at h
    exact .inl ⟨hc, h.symm⟩

/-- What `TxByte` can do. -/
theorem txByte_next {s t : State} (h : txByte s = .next t) :
    (s.ctl ≠ .replying ∧ t = s) ∨ (s.ctl = .replying ∧ ∃ b, s.txBuf[s.txIdx]? = some b ∧ t = s.sendByte b) := by
  unfold txByte at h
  split at h
  · rename_i hc
    split at h
    · rename_i b hb
      simp only [Host.Outcome.next.injEq] at h
      exact .inr ⟨hc, b, hb, h.symm⟩
    · simp at h
  · rename_i hc
    simp only [Host.Outcome.next.injEq] at h
    exact .inl ⟨hc, h.symm⟩

/-- What `Register` can do (rules R140 to R142). -/
theorem register_cases (id : Byte) (h : HandlerRef) (s : State) :
    (s.ctl ≠ .registering ∧ register id h s = s) ∨
    (s.ctl = .registering ∧ DispatchTable.find s.dt id = none ∧
      register id h s = { s with dt := DispatchTable.bind id h s.dt }) ∨
    (s.ctl = .registering ∧ DispatchTable.find s.dt id ≠ none ∧ register id h s = s.abort .duplicateCommand) := by
  unfold register
  split
  · rename_i hc
    split
    · rename_i hf
      exact .inr (.inl ⟨hc, hf, rfl⟩)
    · rename_i g hf
      exact .inr (.inr ⟨hc, by simp [hf], rfl⟩)
  · rename_i hc
    exact .inl ⟨hc, rfl⟩

/-- What `Start` can do (rule R143). -/
theorem start_cases (s : State) :
    (s.ctl ≠ .registering ∧ start s = s) ∨
    (s.ctl = .registering ∧ DispatchTable.find s.dt 255 ≠ none ∧ start s = { s with ctl := .waitingForFrame }) ∨
    (s.ctl = .registering ∧ DispatchTable.find s.dt 255 = none ∧ start s = s.abort .missingSafeHandler) := by
  unfold start
  split
  · rename_i hc
    split
    · rename_i g hf
      exact .inr (.inl ⟨hc, fun e => Option.some_ne_none g (hf.symm.trans e), rfl⟩)
    · rename_i hf
      exact .inr (.inr ⟨hc, hf, rfl⟩)
  · rename_i hc
    exact .inl ⟨hc, rfl⟩

/-- What `RxTimeout` can do (rule R114). -/
theorem rxTimeout_cases (s : State) :
    rxTimeout s = s ∨
    (s.ctl = .waitingForFrame ∧ s.rx.state ≠ .idle ∧
      rxTimeout s = s.takeRx ({ s.rx with state := .idle }, .frameTooShort)) := by
  unfold rxTimeout
  split
  · rename_i h
    exact .inr ⟨h.1, h.2, rfl⟩
  · exact .inl rfl

/-- What `ControlStep` can do (rule R167). -/
theorem controlStep_cases (x : Sensors) (s : State) :
    (s.ctl.running = false ∧ controlStep x s = s) ∨
    (s.ctl.running = true ∧ controlStep x s = { s with board := ControlRef.run s.cfg.control s.board x }) := by
  unfold controlStep
  cases h : s.ctl.running
  · exact .inl ⟨rfl, by simp⟩
  · exact .inr ⟨rfl, by simp⟩

/-- The effects a step can have on a state from which its event has been taken. -/
inductive Effect (s : State) : Event → State → Prop where
  | reset : Effect s .reset (resetBlock s)
  | register (id : Byte) (h : HandlerRef) : Effect s (.register id h) (register id h s)
  | start : Effect s .start (start s)
  | discard (b : Byte) (hc : s.ctl ≠ .waitingForFrame) : Effect s (.rxByte b) s
  | receive (b : Byte) (r : Rx × RxResult) (hc : s.ctl = .waitingForFrame) (hr : s.rx.step s.cfg b = some r) :
      Effect s (.rxByte b) (s.handOff r)
  | timeout : Effect s .rxTimeout (rxTimeout s)
  | control (x : Sensors) : Effect s (.controlStep x) (controlStep x s)
  | noDispatch (hc : s.ctl ≠ .dispatching) : Effect s .dispatch s
  | dispatch (hc : s.ctl = .dispatching) : Effect s .dispatch (s.dispatch s.reqCmd s.reqPayload)
  | noTx (hc : s.ctl ≠ .replying) : Effect s .txByte s
  | tx (b : Byte) (hc : s.ctl = .replying) (hb : s.txBuf[s.txIdx]? = some b) : Effect s .txByte (s.sendByte b)

theorem effect_of_stepEvent {e : Event} {s t : State} (h : stepEvent e s = .next t) : Effect s e t := by
  cases e with
  | reset => simp only [stepEvent_reset, Host.Outcome.next.injEq] at h; exact h ▸ .reset
  | register id g => simp only [stepEvent_register, Host.Outcome.next.injEq] at h; exact h ▸ .register id g
  | start => simp only [stepEvent_start, Host.Outcome.next.injEq] at h; exact h ▸ .start
  | rxByte b =>
    rw [stepEvent_rxByte] at h
    rcases rxByte_next h with ⟨hc, rfl⟩ | ⟨hc, r, hr, rfl⟩
    · exact .discard b hc
    · exact .receive b r hc hr
  | rxTimeout => simp only [stepEvent_rxTimeout, Host.Outcome.next.injEq] at h; exact h ▸ .timeout
  | controlStep x => simp only [stepEvent_controlStep, Host.Outcome.next.injEq] at h; exact h ▸ .control x
  | dispatch =>
    simp only [stepEvent_dispatch, Host.Outcome.next.injEq] at h
    split at h
    · rename_i hc
      exact h ▸ .dispatch hc
    · rename_i hc
      exact h ▸ .noDispatch hc
  | txByte =>
    rw [stepEvent_txByte] at h
    rcases txByte_next h with ⟨hc, rfl⟩ | ⟨hc, b, hb, rfl⟩
    · exact .noTx hc
    · exact .tx b hc hb

/-- Inversion of `step`: everything a step that answers a next state can have done. -/
theorem step_next {s t : State} (h : step s = .next t) :
    s.cfg.wf ∧ ((s.nextEvent = none ∧ t = s.begin) ∨ ∃ e, s.nextEvent = some e ∧ Effect s.begin e t) := by
  unfold step at h
  split at h
  · rename_i hw
    refine ⟨hw, ?_⟩
    split at h
    · rename_i e he
      exact .inr ⟨e, he, effect_of_stepEvent h⟩
    · rename_i he
      simp only [Host.Outcome.next.injEq] at h
      exact .inl ⟨he, h.symm⟩
  · simp at h

/-- No event writes the queue (log 7). -/
theorem Effect.pending {s t : State} {e : Event} (h : Effect s e t) : t.pending = s.pending := by
  cases h with
  | reset => rfl
  | register id h => rcases register_cases id h s with ⟨_, h⟩ | ⟨_, _, h⟩ | ⟨_, _, h⟩ <;> rw [h] <;> rfl
  | start => rcases start_cases s with ⟨_, h⟩ | ⟨_, _, h⟩ | ⟨_, _, h⟩ <;> rw [h] <;> rfl
  | discard => rfl
  | receive b r => rcases s.handOff_cases r with h | ⟨t, _, _, h⟩ <;> rw [h] <;> rfl
  | timeout => rcases rxTimeout_cases s with h | ⟨_, _, h⟩ <;> rw [h] <;> rfl
  | control x => rcases controlStep_cases x s with ⟨_, h⟩ | ⟨_, h⟩ <;> rw [h]
  | noDispatch => rfl
  | dispatch => rw [State.dispatch_eq]; rfl
  | noTx => rfl
  | tx => rfl

/-- No event reads the queue (log 7): with another one, it does the same. -/
theorem stepEvent_pending (e : Event) (s t : State) (q : List Event) (h : stepEvent e s = .next t) :
    stepEvent e { s with pending := q } = .next { t with pending := q } := by
  cases e with
  | reset => cases h; rfl
  | register id g =>
    have h : Host.Outcome.next (register id g s) = .next t := h
    cases h
    show Host.Outcome.next (register id g _) = _
    unfold register
    dsimp only
    repeat' split
    all_goals rfl
  | start =>
    have h : Host.Outcome.next (start s) = .next t := h
    cases h
    show Host.Outcome.next (start _) = _
    unfold start
    dsimp only
    repeat' split
    all_goals rfl
  | rxByte b =>
    rw [stepEvent_rxByte] at h ⊢
    unfold rxByte at h ⊢
    dsimp only
    split at h
    · rename_i hc
      rw [if_pos hc]
      split at h
      · rename_i r hr
        cases h
        obtain ⟨rx2, res⟩ := r
        cases res <;> simp only [State.handOff] <;> first | rfl | (split <;> rfl)
      · cases h
    · rename_i hc
      rw [if_neg hc]
      cases h; rfl
  | rxTimeout =>
    have h : Host.Outcome.next (rxTimeout s) = .next t := h
    cases h
    show Host.Outcome.next (rxTimeout _) = _
    unfold rxTimeout
    dsimp only
    split <;> rfl
  | controlStep x =>
    have h : Host.Outcome.next (controlStep x s) = .next t := h
    cases h
    show Host.Outcome.next (controlStep x _) = _
    unfold controlStep
    dsimp only
    split <;> rfl
  | dispatch =>
    rw [stepEvent_dispatch] at h ⊢
    dsimp only
    split at h
    · rename_i hc
      rw [if_pos hc]
      cases h
      rw [State.dispatch_eq, State.dispatch_eq]; rfl
    · rename_i hc
      rw [if_neg hc]
      cases h; rfl
  | txByte =>
    rw [stepEvent_txByte] at h ⊢
    unfold txByte at h ⊢
    dsimp only
    split at h
    · rename_i hc
      rw [if_pos hc]
      split at h
      · rename_i r hr
        cases h; rfl
      · cases h
    · rename_i hc
      rw [if_neg hc]
      cases h; rfl

end Sys2Proof.Machine
end

