-- ==== Sys2Proof/Laws/Run.lean ====
section
/-! SUPPORT. What several steps of the machine do, and what the decoder does over a list of stuffed body bytes. -/

namespace Sys2Proof.Machine

@[simp] theorem State.after_zero (s : State) : s.after 0 = .next s := rfl

/-- The first of several steps. -/
theorem State.after_succ {s t : State} (h : step s = .next t) (n : Nat) : s.after (n + 1) = t.after n := by
  have h' : Sys2Proof.core.step s = .next t := h
  simp only [State.after, Host.Core.run, h']
  rfl

/-- Several steps whose first is no next state do not answer one. -/
theorem State.after_stuck {s u : State} (h : ∀ t, step s ≠ .next t) (n : Nat) : s.after (n + 1) ≠ .next u := by
  intro hu
  cases hs : step s with
  | next t => exact h t hs
  | fault r =>
    have h' : Sys2Proof.core.step s = .fault r := hs
    simp only [State.after, Host.Core.run, h'] at hu
    cases hu
  | refused r =>
    have h' : Sys2Proof.core.step s = .refused r := hs
    simp only [State.after, Host.Core.run, h'] at hu
    cases hu

@[simp] theorem State.emits_zero (s : State) : s.emits 0 = [] := rfl

/-- The bytes of the first of several steps come first. -/
theorem State.emits_succ {s t : State} (h : step s = .next t) (n : Nat) :
    s.emits (n + 1) = t.out.tx.toList ++ t.emits n := by simp only [State.emits, h]

/-- Steps, and the bytes they emit, add up. -/
theorem State.after_add {s u : State} (n m : Nat) (h : s.after n = .next u) :
    s.emits (n + m) = s.emits n ++ u.emits m ∧ s.after (n + m) = u.after m := by
  induction n generalizing s with
  | zero =>
    simp only [State.after_zero, Host.Outcome.next.injEq] at h
    subst h
    simp
  | succ n ih =>
    cases hs : step s with
    | next t =>
      rw [State.after_succ hs] at h
      obtain ⟨a, b⟩ := ih h
      rw [show n + 1 + m = (n + m) + 1 by omega, State.emits_succ hs, State.emits_succ hs, State.after_succ hs, a, b]
      simp
    | fault r => exact absurd h (State.after_stuck (by simp [hs]) n)
    | refused r => exact absurd h (State.after_stuck (by simp [hs]) n)

/-- What a decoder step reports has the length of what it was fed. -/
theorem Rx.run_length {cfg : Config} (xs : List Byte) {rx q : Rx} {rs : List RxResult}
    (h : rx.run cfg xs = some (q, rs)) : rs.length = xs.length := by
  induction xs generalizing rx q rs with
  | nil => simp [Rx.run] at h; simp [h.2.symm]
  | cons x xs ih =>
    simp only [Rx.run] at h
    split at h
    · simp at h
    · simp only [Option.map_eq_some_iff, Prod.mk.injEq] at h
      obtain ⟨⟨q', rs'⟩, hrun, rfl, rfl⟩ := h
      simp [ih hrun]

/-- Stuffed body bytes are taken one after the other, without a verdict (rules R104, R105, R108). -/
theorem Rx.run_body {cfg : Config} (hw : cfg.wf) (vs : List Byte) {rx : Rx} (hs : rx.state = .inFrame)
    (hc : rx.cnt + vs.length ≤ 6) :
    rx.run cfg (vs.flatMap (stuff cfg)) =
      some (vs.foldl Rx.taken rx, List.replicate (vs.flatMap (stuff cfg)).length .needMore) := by
  induction vs generalizing rx with
  | nil => rfl
  | cons v vs ih =>
    simp only [List.length_cons] at hc
    have h1 := Rx.run_stuff hw hs (by omega) v
    by_cases h6 : rx.cnt + 1 = 6
    · have : vs = [] := List.length_eq_zero_iff.1 (by omega)
      subst this
      simpa using h1
    · have h2 := ih (rx := rx.taken v) (by simp [Rx.taken, h6]) (by simp [Rx.taken]; omega)
      have := Rx.run_append h1 h2
      simp only [List.flatMap_cons, List.foldl_cons, List.length_append, List.replicate_add]
      exact this

/-- In `Idle` every byte is skipped but a `START` (rule R101). -/
theorem Rx.step_idle {cfg : Config} {rx : Rx} (h : rx.state = .idle) (b : Byte) :
    rx.step cfg b = some (if b = cfg.start then rx.frameStart else rx, .needMore) := by simp [Rx.step, h]

/-- No byte of a stuffed body byte is a sentinel (rule R64). -/
theorem stuff_mem {cfg : Config} (h : cfg.wf) {v b : Byte} (hb : b ∈ stuff cfg v) : b ≠ cfg.start ∧ b ≠ cfg.stop := by
  cases hv : special cfg v with
  | false =>
    rw [stuff_of_plain hv, List.mem_singleton] at hb
    subst hb
    exact ⟨(not_special hv).1, (not_special hv).2.1⟩
  | true =>
    rw [stuff_of_special hv] at hb
    rcases List.mem_cons.1 hb with rfl | hb
    · exact ⟨h.2.1.symm, h.2.2.1.symm⟩
    · rw [List.mem_singleton] at hb
      subst hb
      exact ⟨(not_special (image_not_special h hv)).1, (not_special (image_not_special h hv)).2.1⟩

end Sys2Proof.Machine
end

