-- ==== Sys2Proof/Laws/Client.lean ====
section
/-! SUPPORT. What the master's decoder does with what it hears. -/

namespace Sys2Proof.Machine

@[simp] theorem Rx.hear_byte (cfg : Config) (rx : Rx) (b : Byte) :
    rx.hear cfg (.byte b) = (rx.step cfg b).map fun q => (q.1, some q.2) := rfl

@[simp] theorem Rx.hear_timeout (cfg : Config) (rx : Rx) :
    rx.hear cfg .timeout = some (rx.timeout.1, rx.timeout.2) := rfl

/-- Whatever its state, a timeout leaves a decoder in `Idle`, its other registers as they were (rule R114). -/
theorem Rx.timeout_fst (rx : Rx) : rx.timeout.1 = { rx with state := .idle } := by
  unfold Rx.timeout
  split
  · rename_i h
    rw [← h]
  · rfl

/-- A timeout reports `FrameTooShort` or nothing (rule R114). -/
theorem Rx.timeout_snd (rx : Rx) : rx.timeout.2 = if rx.state = .idle then none else some .frameTooShort := by
  simp only [Rx.timeout]
  split <;> rfl

/-- In every state rule R32 allows the decoder goes on, whatever it hears, to such a state. -/
theorem Rx.hear_inv {rx : Rx} (hi : rx.Inv) (cfg : Config) (h : Heard) :
    ∃ rx' r, rx.hear cfg h = some (rx', r) ∧ rx'.Inv := by
  cases h with
  | byte b =>
    obtain ⟨⟨rx', r⟩, hs⟩ := Option.isSome_iff_exists.1 (Rx.step_isSome hi cfg b)
    exact ⟨rx', some r, by simp [hs], Rx.inv_step hi hs⟩
  | timeout => exact ⟨_, _, rfl, by rw [Rx.timeout_fst]; exact ⟨by simp, by simp, by simp⟩⟩

theorem Rx.listen_cons {cfg : Config} {rx rx' : Rx} {h : Heard} {r : Option RxResult} (e : rx.hear cfg h = some (rx', r))
    (hs : List Heard) : rx.listen cfg (h :: hs) = (rx'.listen cfg hs).map fun q => (q.1, r.toList ++ q.2) := by
  simp only [Rx.listen, e]

/-- Heard bytes alone are a run of the decoder. -/
theorem Rx.listen_bytes (cfg : Config) (bs : List Byte) (rx : Rx) : rx.listen cfg (bs.map Heard.byte) = rx.run cfg bs := by
  induction bs generalizing rx with
  | nil => rfl
  | cons b bs ih =>
    simp only [List.map_cons, Rx.listen, Rx.run, Rx.hear_byte]
    cases rx.step cfg b with
    | none => rfl
    | some q => simp only [Option.map_some, ih, Option.toList_some, List.singleton_append]

/-- What is heard before any matching frame does not decide the answer but through the registers it leaves (rule R190). -/
theorem firstAnswer_append {cfg : Config} {a c : Byte} (later : List Heard) (earlier : List Heard) {rx rx' : Rx}
    {rs : List RxResult} (h : rx.listen cfg earlier = some (rx', rs))
    (hno : ∀ t, .frameOk t ∈ rs → t.addr ≠ a ∨ t.cmd ≠ c) :
    firstAnswer cfg a c rx (earlier ++ later) = firstAnswer cfg a c rx' later := by
  induction earlier generalizing rx rs with
  | nil => cases h; rfl
  | cons e es ih =>
    simp only [Rx.listen] at h
    split at h
    · cases h
    · rename_i q r hq
      simp only [Option.map_eq_some_iff, Prod.mk.injEq] at h
      obtain ⟨⟨q', rs'⟩, hrun, rfl, rfl⟩ := h
      have ih := ih hrun fun t ht => hno t (List.mem_append_right _ ht)
      simp only [List.cons_append, firstAnswer, hq]
      split
      · rename_i t
        have hn := hno t (by simp)
        have : t.answers a c = false := by
          rcases hn with h | h <;> simp [Transaction.answers, h]
        simpa [this] using ih
      · exact ih

end Sys2Proof.Machine
end

