-- ==== Sys2Proof/Laws/PerInstr.lean ====
section
/-! SUPPORT. Statements made instruction by instruction. -/

open Sys2Proof

/-- The class of a frame made from a well-formed instruction is that instruction's (rule R72), with none of its fields
lost. -/
def Sys2Proof.Laws.ClassOf.Statement (i : Instr) : Prop :=
  ∀ bound : Byte → Bool, i.WellFormed bound → classify bound i.fields = i

theorem Sys2Proof.Laws.ClassOf.estop (addr : Byte) (payload : Payload) (csum : Byte) :
    Sys2Proof.Laws.ClassOf.Statement (.estop addr payload csum) := fun _ _ => rfl

theorem Sys2Proof.Laws.ClassOf.cmd (addr id : Byte) (payload : Payload) (csum : Byte) :
    Sys2Proof.Laws.ClassOf.Statement (.cmd addr id payload csum) := by
  rintro bound ⟨h1, h2, h3⟩
  have h1 : id ≠ 255#8 := h1
  have h2 : id ≠ 2#8 := h2
  simp [classify, Instr.fields, Instr.addr, Instr.id, Instr.payload, Instr.csum, h1, h2, h3]

theorem Sys2Proof.Laws.ClassOf.unknown (addr id : Byte) (payload : Payload) (csum : Byte) :
    Sys2Proof.Laws.ClassOf.Statement (.unknown addr id payload csum) := by
  rintro bound ⟨h1, h2⟩
  have h1 : id ≠ 255#8 := h1
  simp [classify, Instr.fields, Instr.addr, Instr.id, Instr.payload, Instr.csum, h1, h2]

theorem Sys2Proof.Laws.ClassOf.spin0 (addr : Byte) (payload : Payload) (csum : Byte) :
    Sys2Proof.Laws.ClassOf.Statement (.spin0 addr payload csum) := by
  intro bound h
  have h : bound 2#8 = true := h
  simp [classify, Instr.fields, Instr.addr, Instr.id, Instr.payload, Instr.csum, h]
end

