-- ==== Sys2Proof/Laws/Schedule.lean ====
section
/-! SUPPORT. Runs under the eager schedule, step by step. -/

namespace Sys2Proof.Machine

@[simp] theorem Run.andThen_next (t : State) (outs : List Output) (f : State → Run) :
    Run.andThen (.next t, outs) f = ((f t).1, outs ++ (f t).2) := rfl

/-- A run that goes on to a next state has reached one before. -/
theorem Run.andThen_eq_next {r : Run} {f : State → Run} {u : State} {outs : List Output}
    (h : Run.andThen r f = (.next u, outs)) :
    ∃ t first others, r = (.next t, first) ∧ f t = (.next u, others) ∧ outs = first ++ others := by
  obtain ⟨o, first⟩ := r
  cases o with
  | next t =>
    simp only [Run.andThen_next, Prod.mk.injEq] at h
    exact ⟨t, first, (f t).2, rfl, Prod.ext h.1 rfl, h.2.symm⟩
  | fault x => simp [Run.andThen] at h
  | refused x => simp [Run.andThen] at h

theorem State.stepRun_next {s t : State} (h : step s = .next t) : s.stepRun = (.next t, [t.out]) := by
  simp only [State.stepRun, h]

/-- With no event at hand a run is settled. -/
theorem State.settleIn_none {s : State} (h : s.nextEvent = none) (n : Nat) : s.settleIn n = (.next s, []) := by
  cases n with
  | zero => rfl
  | succ n => simp [State.settleIn, h]

theorem State.settle_none {s : State} (h : s.nextEvent = none) : s.settle = (.next s, []) := State.settleIn_none h _

/-- The first step of a run that is not settled. -/
theorem State.settleIn_step {s t : State} {e : Event} (he : s.nextEvent = some e) (h : step s = .next t) (n : Nat) :
    s.settleIn (n + 1) = ((t.settleIn n).1, t.out :: (t.settleIn n).2) := by
  simp [State.settleIn, he, State.stepRun_next h]

/-- No event is at hand exactly when the run is quiescent (rules R215, R245). -/
theorem State.nextEvent_eq_none {s : State} : s.nextEvent = none ↔ s.quiescent := by
  cases hp : s.pending with
  | cons e es => simp [State.nextEvent_cons hp, hp]
  | nil =>
    rw [State.nextEvent_nil hp]
    cases hc : s.ctl <;> simp [State.quiescent, hp, hc]

end Sys2Proof.Machine
end

