-- ==== Sys2Proof/Laws/Table.lean ====
section
/-! SUPPORT. What the table operations do. -/

namespace Sys2Proof.Machine

@[simp] theorem DispatchTable.find_nil (c : Byte) : DispatchTable.find [] c = none := rfl

theorem DispatchTable.find_cons (k : Byte) (h : HandlerRef) (t : DispatchTable) (c : Byte) :
    DispatchTable.find ((k, h) :: t) c = if k = c then some h else DispatchTable.find t c := rfl

/-- A binding leaves the ids it found and adds its own. -/
theorem DispatchTable.mem_bind {id : Byte} {h : HandlerRef} {t : DispatchTable} {r : Byte × HandlerRef}
    (hr : r ∈ DispatchTable.bind id h t) : r = (id, h) ∨ r ∈ t := by
  induction t with
  | nil => simpa [DispatchTable.bind] using hr
  | cons q t ih =>
    obtain ⟨k, g⟩ := q
    simp only [DispatchTable.bind] at hr
    split at hr
    · simpa using hr
    · split at hr
      · rename_i hk
        rcases List.mem_cons.1 hr with rfl | hr
        · exact .inl (by rw [hk])
        · exact .inr (List.mem_cons_of_mem _ hr)
      · rcases List.mem_cons.1 hr with rfl | hr
        · exact .inr List.mem_cons_self
        · exact (ih hr).imp (fun e => e) (List.mem_cons_of_mem _)

/-- Binding keeps the canonical form. -/
theorem DispatchTable.wf_bind (id : Byte) (h : HandlerRef) {t : DispatchTable} (ht : DispatchTable.wf t) :
    DispatchTable.wf (DispatchTable.bind id h t) := by
  induction t with
  | nil => simp [DispatchTable.bind, DispatchTable.wf]
  | cons q t ih =>
    obtain ⟨k, g⟩ := q
    simp only [DispatchTable.wf, List.map_cons, List.pairwise_cons] at ht
    simp only [DispatchTable.bind]
    split
    · rename_i hlt
      simp only [DispatchTable.wf, List.map_cons, List.pairwise_cons]
      refine ⟨?_, ht⟩
      simp only [List.mem_cons, forall_eq_or_imp]
      exact ⟨hlt, fun n hn => Nat.lt_trans hlt (ht.1 n hn)⟩
    · split
      · simpa [DispatchTable.wf] using ht
      · rename_i h1 h2
        simp only [DispatchTable.wf, List.map_cons, List.pairwise_cons]
        refine ⟨?_, ih ht.2⟩
        intro n hn
        obtain ⟨r, hr, rfl⟩ := List.mem_map.1 hn
        rcases DispatchTable.mem_bind hr with rfl | hr
        · have : id.toNat ≠ k.toNat := fun e => h2 (BitVec.eq_of_toNat_eq e)
          simp only
          omega
        · exact ht.1 _ (List.mem_map_of_mem hr)

/-- The table of a registration list is in canonical form. -/
theorem DispatchTable.wf_ofReg (reg : List (Byte × HandlerRef)) : DispatchTable.wf (DispatchTable.ofReg reg) := by
  have : ∀ t : DispatchTable, DispatchTable.wf t → DispatchTable.wf
      (reg.foldl (fun t r => if DispatchTable.bound t r.1 then t else DispatchTable.bind r.1 r.2 t) t) := by
    induction reg with
    | nil => exact fun t ht => ht
    | cons r reg ih =>
      intro t ht
      simp only [List.foldl_cons]
      refine ih _ ?_
      split
      · exact ht
      · exact DispatchTable.wf_bind _ _ ht
  exact this [] (by simp [DispatchTable.wf])

end Sys2Proof.Machine
end

