-- ==== Sys2Proof/Tests/Slice0.lean ====
section
/-! SUPPORT. Tests whose expected results stand in the spec (95_test_vectors.md and the rules' own examples), and for every
obligation with hypotheses a witness that meets them. -/

namespace Sys2Proof.Tests

open Sys2Proof Sys2Proof.Machine

/-! ### Helpers -/

/-- The ids `STD` binds. -/
def stdBound : Byte → Bool := boundIn Config.std

/-- `CFG1` of vectors A1 to A5. -/
def cfg1 : Config := { Config.cfg0 with start := 0x02, stop := 0x03, esc := 0x10, mask := 0x20 }

/-- `S_BOOT` of the test vectors, with the given events to come. -/
def booted (es : List Event) : State :=
  { State.resetOf Config.cfg0 es with
    ctl := .waitingForFrame
    dt := [(2, .spin), (3, .read), (255, .estop)] }

/-- `S_BOOT` with the decoder in the middle of a frame. -/
def receiving (st : RxState) (n : Nat) (x : Byte) (es : List Event) : State :=
  { booted es with rx := { Rx.reset with state := st, cnt := n, xor := x } }

/-- The start state of the K vectors: an accepted request, and the board's goal and position. -/
def accepted (c : Byte) (p goal pos : Payload) (es : List Event) : State :=
  { booted es with ctl := .dispatching, reqCmd := c, reqPayload := p, board := ⟨goal, pos, []⟩ }

/-- The start state of TX1. -/
def sending (idx : Nat) (es : List Event) : State :=
  { booted es with
    ctl := .replying
    reqCmd := 2
    reqPayload := 120
    respPayload := 120
    txBuf := [0x7E, 0x01, 0x02, 0x00, 0x00, 0x00, 0x78, 0x7B, 0x7F]
    txLen := 9
    txIdx := idx }

/-- Whether an outcome is a next state with the given property. -/
def nextIs (o : Host.Outcome State Fault Refusal) (p : State → Bool) : Bool :=
  match o with
  | .next t => p t
  | .fault _ => false
  | .refused _ => false

/-- The four results a K row gives. -/
def kRow (resp : Payload) (o : DispatchOutcome) (goal : Payload) (tx : List Byte) (t : State) : Bool :=
  t.ctl == .replying && t.respPayload == resp && t.lastOutcome == o && t.board.goal == goal && t.txBuf == tx &&
  t.txLen == tx.length && t.txIdx == 0

/-! ### WellFormed refuses ill-formed terms -/

/-- Rule R6 and section 2.10: `CFG0` and `CFG1` are well-formed. -/
theorem test_wf_cfg0_cfg1 : Config.cfg0.wf ∧ cfg1.wf := by decide

/-- Section 2.10: `START == END`. -/
theorem test_wf_start_eq_end : ¬ { Config.cfg0 with stop := 0x7E }.wf := by decide

theorem test_wf_start_eq_esc : ¬ { Config.cfg0 with esc := 0x7E }.wf := by decide

theorem test_wf_end_eq_esc : ¬ { Config.cfg0 with esc := 0x7F }.wf := by decide

/-- Section 2.10: `ESC = 5E` is the image of `START`. -/
theorem test_wf_image_of_start : ¬ { Config.cfg0 with esc := 0x5E }.wf := by decide

theorem test_wf_image_of_end : ¬ { Config.cfg0 with esc := 0x5F }.wf := by decide

/-- `ESC ^ MASK = START`. -/
theorem test_wf_image_of_esc : ¬ { Config.cfg0 with start := 0x5D }.wf := by decide

/-- Section 2.10: `MASK = 00`. -/
theorem test_wf_mask_zero : ¬ { Config.cfg0 with mask := 0x00 }.wf := by decide

/-- Rule R6 item 3. -/
theorem test_wf_address_zero : ¬ { Config.cfg0 with myAddr := 0 }.wf := by decide

theorem test_wf_cmd_estop_id : ¬ (Instr.cmd 1 255 0 0xFE).WellFormed stdBound := by decide

theorem test_wf_cmd_unbound : ¬ (Instr.cmd 1 7 5 0x03).WellFormed stdBound := by decide

theorem test_wf_cmd_spin0_id : ¬ (Instr.cmd 1 2 120 0x7B).WellFormed stdBound := by decide

theorem test_wf_unknown_estop_id : ¬ (Instr.unknown 1 255 0 0xFE).WellFormed (fun _ => false) := by decide

theorem test_wf_unknown_bound : ¬ (Instr.unknown 1 3 1000 0xE9).WellFormed stdBound := by decide

theorem test_wf_spin0_unbound : ¬ (Instr.spin0 1 120 0x7B).WellFormed (fun _ => false) := by decide

/-! ### Decoding, from words written out by rule R79 -/

/-- E3: `START`, address 1, id 255, payload 0, checksum `FE`, `END`. -/
theorem test_decode_estop :
    decodeTableWord 72 0b01111110_00000001_11111111_00000000_00000000_00000000_00000000_11111110_01111111
      = some (.estop 1 0 0xFE) := by decide

/-- E9: address 1, id 3, payload -5, checksum `06`. -/
theorem test_decode_cmd :
    decodeTableWord 72 0b01111110_00000001_00000011_11111111_11111111_11111111_11111011_00000110_01111111
      = some (.cmd 1 3 (-5) 0x06) := by decide

/-- E5: address 1, id 7, payload 5, checksum `03`. -/
theorem test_decode_unknown :
    decodeTableWord 72 0b01111110_00000001_00000111_00000000_00000000_00000000_00000101_00000011_01111111
      = some (.unknown 1 7 5 0x03) := by decide

/-- E23: every special byte in the payload, and a checksum equal to `END`. -/
theorem test_decode_spin0 :
    decodeTableWord 72 0b01111110_00000001_00000010_01111110_01111111_01111101_00000000_01111111_01111111
      = some (.spin0 1 0x7E7F7D00 0x7F) := by decide

/-- E26, as it travels. -/
theorem test_decode_longest :
    decode Config.cfg0 stdBound
      [0x7E, 0x7D, 0x5E, 0x7D, 0x5E, 0x7D, 0x5E, 0x7D, 0x5E, 0x7D, 0x5E, 0x7D, 0x5E, 0x00, 0x7F]
      = .ok (.unknown 0x7E 0x7E 0x7E7E7E7E 0x00) := by decide

/-- Rules R71, R73 and R101: byte sequences that are no frame, each rejected by name. -/
theorem test_decode_rejects :
    decode Config.cfg0 stdBound [] = .error .truncated ∧
    decode Config.cfg0 stdBound [0x00, 0x7F] = .error .noStart ∧
    decode Config.cfg0 stdBound [0x7E, 0x01, 0x7D, 0x22] = .error .badEscape ∧
    decode Config.cfg0 stdBound [0x7E, 0x01, 0x7D, 0x7D] = .error .badEscape ∧
    decode Config.cfg0 stdBound [0x7E, 0x01, 0x7E] = .error .startInside ∧
    decode Config.cfg0 stdBound [0x7E, 0x01, 0x7D, 0x7F] = .error .endInside ∧
    decode Config.cfg0 stdBound [0x7E, 0x01, 0x02, 0x00, 0x00, 0x00, 0x78, 0x7B, 0x00] = .error .noEnd ∧
    decode Config.cfg0 stdBound [0x7E, 0x01, 0x02, 0x00, 0x00, 0x00, 0x78, 0x7B, 0x7F, 0x00] = .error .trailing := by
  decide

/-! ### Encoding -/

/-- E21, E24 and E30: a stuffed payload byte, stuffed address and id, a checksum equal to `START` sent raw. -/
theorem test_encode_cfg0 :
    encode Config.cfg0 1 2 2147483647 = [0x7E, 0x01, 0x02, 0x7D, 0x5F, 0xFF, 0xFF, 0xFF, 0x83, 0x7F] ∧
    encode Config.cfg0 126 127 (-1) = [0x7E, 0x7D, 0x5E, 0x7D, 0x5F, 0xFF, 0xFF, 0xFF, 0xFF, 0x01, 0x7F] ∧
    encode Config.cfg0 1 64 63 = [0x7E, 0x01, 0x40, 0x00, 0x00, 0x00, 0x3F, 0x7E, 0x7F] := by decide

/-- A1 and A3: the same under another configuration. -/
theorem test_encode_cfg1 :
    encode cfg1 1 2 120 = [0x02, 0x01, 0x10, 0x22, 0x00, 0x00, 0x00, 0x78, 0x7B, 0x03] ∧
    encode cfg1 2 3 16 = [0x02, 0x10, 0x22, 0x10, 0x23, 0x00, 0x00, 0x00, 0x10, 0x30, 0x11, 0x03] := by decide

/-! ### One step of each instruction -/

/-- K7. -/
theorem test_estop_dispatch :
    nextIs (exec (.estop 1 0 0xFE) (accepted 255 0 120 7 []))
      (kRow 0 .ok 0 [0x7E, 0x01, 0xFF, 0x00, 0x00, 0x00, 0x00, 0xFE, 0x7F]) = true := by decide

/-- L2: an emergency stop for board 2 is not board 1's. -/
theorem test_estop_foreign :
    nextIs (exec (.estop 2 0 0xFD) (receiving .expectChecksum 7 0xFD []))
      (fun t => t.ctl == .waitingForFrame && t.out.rx == some (.frameOk ⟨2, 255, 0⟩) && t.reqCmd == 0) = true := by decide

/-- K5: a read-oriented command answers the board's position and ignores its payload. -/
theorem test_cmd_dispatch :
    nextIs (exec (.cmd 1 3 999 0) (accepted 3 999 120 (-5) []))
      (kRow (-5) .ok 120 [0x7E, 0x01, 0x03, 0xFF, 0xFF, 0xFF, 0xFB, 0x06, 0x7F]) = true := by decide

/-- K13: a bound handler's `UnknownCommand` and its payload are passed through. -/
theorem test_cmd_outcome_passed_through :
    nextIs (exec (.cmd 1 11 5 0) { accepted 11 5 0 0 [] with dt := [(11, .part), (255, .estop)] })
      (kRow 77 .unknownCommand 0 [0x7E, 0x01, 0x0B, 0x00, 0x00, 0x00, 0x4D, 0x47, 0x7F]) = true := by decide

/-- K9. -/
theorem test_unknown_dispatch :
    nextIs (exec (.unknown 1 7 5 0x03) (accepted 7 5 120 7 []))
      (kRow 0 .unknownCommand 120 [0x7E, 0x01, 0x07, 0x00, 0x00, 0x00, 0x00, 0x06, 0x7F]) = true := by decide

/-- X2: a checksum that does not match. -/
theorem test_unknown_corrupt :
    nextIs (exec (.unknown 1 7 5 0x02) (receiving .expectChecksum 7 0x03 []))
      (fun t => t.ctl == .waitingForFrame && t.rx.state == .idle && t.out.rx == some .frameCorrupt) = true := by decide

/-- K4: all 32 bits pass through, and the reply is stuffed. -/
theorem test_spin0_dispatch :
    nextIs (exec (.spin0 1 2122284288 0x7F) (accepted 2 2122284288 0 0 []))
      (kRow 2122284288 .ok 2122284288 [0x7E, 0x01, 0x02, 0x7D, 0x5E, 0x7D, 0x5F, 0x7D, 0x5D, 0x00, 0x7F, 0x7F]) = true := by
  decide

/-- The last line of D1: acceptance. -/
theorem test_spin0_accepted :
    nextIs (exec (.spin0 1 120 0x7B) (receiving .expectChecksum 7 0x7B []))
      (fun t => t.ctl == .dispatching && t.reqCmd == 2 && t.reqPayload == 120 && t.rx.state == .idle &&
        t.out.rx == some (.frameOk ⟨1, 2, 120⟩)) = true := by decide

/-! ### One step of the other events -/

/-- The fifth line of D2: an image after `ESC` is unmasked into the buffer and the running XOR. -/
theorem test_escaped_image :
    nextIs (step (receiving .escaped 2 0x03 [.rxByte 0x5E]))
      (fun t => t.rx.state == .inFrame && t.rx.cnt == 3 && t.rx.xor == 0x7D && t.rx.buf.b2 == 0x7E) = true := by decide

/-- T5: a timeout gives a frame up even when its checksum matched. -/
theorem test_timeout :
    nextIs (step { receiving .expectChecksum 7 0x7B [.rxTimeout] with ctl := .waitingForFrame })
      (fun t => t.rx.state == .idle && t.rx.cnt == 7 && t.out.rx == some .frameTooShort) = true := by decide

/-- B9: the first binding stays. -/
theorem test_register_twice :
    nextIs (step { State.resetOf Config.cfg0 [.register 255 .spin] with dt := [(255, .estop)] })
      (fun t => t.ctl == .halted && t.bootErr == some .duplicateCommand && t.dt == [(255, .estop)]) = true := by decide

/-- B6: `Start` with nothing bound. -/
theorem test_start_unsafe :
    nextIs (step (State.resetOf Config.cfg0 [.start]))
      (fun t => t.ctl == .halted && t.bootErr == some .missingSafeHandler) = true := by decide

/-- Step 21 of P8: the interlock clamps the goal, and the reply in progress is not affected. -/
theorem test_control_step :
    nextIs (step { sending 4 [.controlStep ⟨4, true, []⟩] with board := ⟨120, 3, []⟩ })
      (fun t => t.board == ⟨0, 4, []⟩ && t.txIdx == 4 && t.ctl == .replying) = true := by decide

/-- TX1: the last byte. -/
theorem test_tx_last :
    nextIs (step (sending 8 [])) (fun t => t.out.tx == some 0x7F && t.txIdx == 9 && t.ctl == .waitingForFrame) = true := by
  decide

/-- The placed word of E3 is the first thing the machine runs after reset. -/
theorem test_fetch_word :
    nextIs (step (State.reset.withFetchWord 72 0x7E01FF00000000FE7F))
      (kRow 0 .ok 0 [0x7E, 0x01, 0xFF, 0x00, 0x00, 0x00, 0x00, 0xFE, 0x7F]) = true := by decide

/-- Vector M3 (`Decode`), M2 (`Timeout`), and the byte 0 that cannot be called (rule R181). -/
theorem test_call_fails :
    call Config.cfg0 Rx.reset 1 2 120 ([0x7E, 0x01, 0x02, 0x00, 0x00, 0x00, 0x78, 0x7A, 0x7F].map Heard.byte) =
      some ([0x7E, 0x01, 0x02, 0x00, 0x00, 0x00, 0x78, 0x7B, 0x7F], .error .decode) ∧
    call Config.cfg0 Rx.reset 1 2 120 [.timeout] =
      some ([0x7E, 0x01, 0x02, 0x00, 0x00, 0x00, 0x78, 0x7B, 0x7F], .error .timeout) ∧
    call Config.cfg0 Rx.reset 0 2 120 [] = none := by decide

/-- Vector M6: the late reply `{1, 2, 120}` is discarded, the true reply `{1, 3, 17}` is the answer. -/
theorem test_call_stray :
    (call Config.cfg0 Rx.reset 1 3 0
      ([0x7E, 0x01, 0x02, 0x00, 0x00, 0x00, 0x78, 0x7B, 0x7F, 0x7E, 0x01, 0x03, 0x00, 0x00, 0x00, 0x11, 0x13, 0x7F].map
        Heard.byte)).map Prod.snd = some (.ok 17) := by decide

/-- Rule R245: the reply in progress is finished before the next byte comes, which is then no lost one (compare rule R117). -/
theorem test_eager_settles_first :
    nextIs ((sending 8 []).eagerRun [.rxByte 0x7E]).1 (fun t => t.rx.state == .inFrame && t.ctl == .waitingForFrame) = true ∧
    ((sending 8 []).eagerRun [.rxByte 0x7E]).2.filterMap Output.tx = [0x7F] := by decide

/-- R169's premise holds of the spec's `C_EX`, for the limit switch and a goal of 0. -/
theorem test_interlock_of_example :
    ControlRef.InterlockPremise .example0 (fun x => x.limit) (fun bs => bs.goal == 0) := by
  intro bs x h
  have h : x.limit = true := h
  simp [ControlRef.run, h]

/-- Rule R234's premise holds of the board of the test vectors. -/
theorem test_neutral_start : neutralStart Config.cfg0 := rfl

/-! ### Witnesses: the hypotheses of every obligation that has some are met together -/

theorem witness_DecodeInvertsEncode :
    Config.cfg0.wf ∧ cfg1.wf ∧ (Instr.estop 0 0 0).WellFormed stdBound ∧ (Instr.cmd 255 3 (-1) 255).WellFormed stdBound ∧
    (Instr.unknown 1 254 5 3).WellFormed stdBound ∧ (Instr.spin0 1 120 0x7B).WellFormed stdBound := by decide

theorem witness_OnlyEncodingsDecode :
    Config.cfg0.wf ∧
    decode Config.cfg0 stdBound [0x7E, 0x01, 0x02, 0x00, 0x00, 0x00, 0x78, 0x7B, 0x7F] = .ok (.spin0 1 120 0x7B) := by decide

theorem witness_StuffedBodyHoldsNoSentinel : Config.cfg0.wf := by decide

theorem witness_IdleSkipsToStart :
    (booted [.rxByte 0x7E]).cfg.wf ∧ (booted [.rxByte 0x7E]).ctl = .waitingForFrame ∧
    (booted [.rxByte 0x7E]).rx.state = .idle ∧ (booted [.rxByte 0x7D]).rx.state = .idle := by decide

/-- The four clauses: `START`, `END`, `ESC`, and a body byte at the counts 0 and 5. -/
theorem witness_InFrameTakesBodyBytes :
    ∀ b ∈ [0x7E#8, 0x7F#8, 0x7D#8, 0x00#8], ∀ n ∈ [0, 5],
      (receiving .inFrame n 0 [.rxByte b]).cfg.wf ∧ (receiving .inFrame n 0 [.rxByte b]).ctl = .waitingForFrame ∧
      (receiving .inFrame n 0 [.rxByte b]).rx.state = .inFrame ∧ (receiving .inFrame n 0 [.rxByte b]).rx.cnt ≤ 5 := by decide

/-- The four clauses: `START`, `END`, an image, and any other byte, at the counts 0 and 5. -/
theorem witness_EscapedTakesImagesOnly :
    ∀ b ∈ [0x7E#8, 0x7F#8, 0x5D#8, 0x7D#8], ∀ n ∈ [0, 5],
      (receiving .escaped n 0 [.rxByte b]).cfg.wf ∧ (receiving .escaped n 0 [.rxByte b]).ctl = .waitingForFrame ∧
      (receiving .escaped n 0 [.rxByte b]).rx.state = .escaped ∧ (receiving .escaped n 0 [.rxByte b]).rx.cnt ≤ 5 := by decide

theorem witness_ChecksumByteIsLatched :
    (receiving .expectChecksum 6 0x7E [.rxByte 0x7E]).cfg.wf ∧
    (receiving .expectChecksum 6 0x7E [.rxByte 0x7E]).ctl = .waitingForFrame ∧
    (receiving .expectChecksum 6 0x7E [.rxByte 0x7E]).rx.state = .expectChecksum ∧
    (receiving .expectChecksum 6 0x7E [.rxByte 0x7E]).rx.cnt = 6 := by decide

/-- The clauses: `END` with the checksum right (0) and wrong (1), `START`, and any other byte. -/
theorem witness_ClosingByteValidates :
    ∀ b ∈ [0x7F#8, 0x7E#8, 0x7D#8], ∀ x ∈ [0#8, 1#8],
      (receiving .expectChecksum 7 x [.rxByte b]).cfg.wf ∧
      (receiving .expectChecksum 7 x [.rxByte b]).ctl = .waitingForFrame ∧
      (receiving .expectChecksum 7 x [.rxByte b]).rx.state = .expectChecksum ∧
      (receiving .expectChecksum 7 x [.rxByte b]).rx.cnt = 7 := by decide

/-- Both clauses: a frame in progress, and none. -/
theorem witness_TimeoutGivesFrameUp :
    (receiving .inFrame 1 1 [.rxTimeout]).cfg.wf ∧ (receiving .inFrame 1 1 [.rxTimeout]).pending = [.rxTimeout] ∧
    (booted [.rxTimeout]).cfg.wf ∧ (booted [.rxTimeout]).pending = [.rxTimeout] := by decide

theorem witness_BytesToBusyBlockAreLost :
    (sending 4 [.rxByte 0x7E, .rxByte 0x01]).cfg.wf ∧ (sending 4 [.rxByte 0x7E, .rxByte 0x01]).ctl ≠ .waitingForFrame ∧
    (sending 4 [.rxByte 0x7E, .rxByte 0x01]).pending = [0x7E, 0x01].map Event.rxByte ++ [] := by decide

/-- StreamingRoundTrip and ChecksumDecidesVerdict, the latter with a checksum of its own and another. -/
theorem witness_StreamingRoundTrip :
    Config.cfg0.wf ∧ Rx.reset.state = .idle ∧ checksum 1 2 120 = 0x7B ∧ checksum 1 2 120 ≠ 0x7A := by decide

theorem witness_VerdictResynchronises :
    (receiving .inFrame 2 3 []).rx.step Config.cfg0 0x7E = some ((receiving .inFrame 2 3 []).rx.frameStart, .frameTooShort) ∧
    RxResult.frameTooShort ≠ .needMore := by decide

/-- WholeFrameIsAccepted, in the two states its hypothesis tells apart. -/
theorem witness_WholeFrameIsAccepted :
    Config.cfg0.wf ∧ ((receiving .escaped 5 0 []).rx.state = .expectChecksum → (receiving .escaped 5 0 []).rx.cnt = 7) ∧
    ((receiving .expectChecksum 7 0 []).rx.state = .expectChecksum → (receiving .expectChecksum 7 0 []).rx.cnt = 7) := by
  decide

/-- The longest frame after its `START`, the last of the fourteen bytes giving the verdict. -/
theorem witness_VerdictWithinByteBudget :
    Config.cfg0.wf ∧ (receiving .inFrame 0 0 []).rx.state = .inFrame ∧ (receiving .inFrame 0 0 []).rx.cnt = 0 ∧
    ((⟨0x7E, 0x7E, 0x7E7E7E7E⟩ : Transaction).frame Config.cfg0).tail.length = 14 ∧
    ((receiving .inFrame 0 0 []).rx.run Config.cfg0
      ((⟨0x7E, 0x7E, 0x7E7E7E7E⟩ : Transaction).frame Config.cfg0).tail).isSome = true := by decide

theorem witness_IdleRegistersAreDead :
    Rx.reset.state = .idle ∧ ({ Rx.reset with cnt := 7, xor := 0x7B } : Rx).state = .idle := by decide

/-- OneLostByteCostsOneFrame at the first and the last byte (X12, X10). -/
theorem witness_OneLostByteCostsOneFrame :
    Config.cfg0.wf ∧ Rx.reset.state = .idle ∧ 0 < ((⟨1, 2, 120⟩ : Transaction).frame Config.cfg0).length ∧
    8 < ((⟨1, 2, 120⟩ : Transaction).frame Config.cfg0).length := by decide

/-- OneChangedByteCostsOneFrame: a plain change (X1), and the collision its last clause sets aside (X25). -/
theorem witness_OneChangedByteCostsOneFrame :
    Config.cfg0.wf ∧ Rx.reset.state = .idle ∧
    ((⟨1, 2, 120⟩ : Transaction).frame Config.cfg0)[6]? = some 0x78 ∧ (0x79#8 ≠ 0x78) ∧
    ¬ (0x78#8 = Config.cfg0.esc ∧ 6 + 2 < ((⟨1, 2, 120⟩ : Transaction).frame Config.cfg0).length ∧
      special Config.cfg0 0x79 = false) ∧
    ((⟨0x5F, 1, 0x7D5D0001⟩ : Transaction).frame Config.cfg0)[3]? = some 0x7D ∧ (0x5F#8 ≠ 0x7D) ∧
    special Config.cfg0 0x5F = false := by decide

theorem witness_FrameAtChecksumPositionIsLost :
    Config.cfg0.wf ∧ (receiving .expectChecksum 6 0 []).rx.state = .expectChecksum ∧
    (receiving .expectChecksum 6 0 []).rx.cnt = 6 := by decide

/-- EstopRunsItsHandler and TableSelectsTheAnswer: with a handler for 255, and with none. -/
theorem witness_EstopRunsItsHandler :
    (accepted 255 0 120 7 []).ctl = .dispatching ∧ DispatchTable.find (accepted 255 0 120 7 []).dt 255 = some .estop ∧
    ({ accepted 255 0 120 7 [] with dt := [] } : State).ctl = .dispatching := by decide

theorem witness_CmdRunsBoundHandler :
    (accepted 3 999 120 (-5) []).ctl = .dispatching ∧
    DispatchTable.find (accepted 3 999 120 (-5) []).dt 3 = some .read := by decide

theorem witness_UnknownIsAnsweredWithZero :
    (accepted 7 5 120 7 []).ctl = .dispatching ∧ DispatchTable.find (accepted 7 5 120 7 []).dt 7 = none := by decide

theorem witness_Spin0RunsBoundHandler :
    (accepted 2 120 0 0 []).ctl = .dispatching ∧ DispatchTable.find (accepted 2 120 0 0 []).dt 2 = some .spin := by decide

/-- CommandFrameIsValidatedAndFiltered: all three clauses (own address, another, a wrong checksum). -/
theorem witness_CommandFrameIsValidatedAndFiltered :
    (receiving .expectChecksum 7 0x7B []).ctl = .waitingForFrame ∧
    (Instr.spin0 1 120 0x7B).csum = (receiving .expectChecksum 7 0x7B []).rx.xor ∧
    (Instr.spin0 1 120 0x7B).addr = (receiving .expectChecksum 7 0x7B []).cfg.myAddr ∧
    (Instr.spin0 2 120 0x7B).addr ≠ (receiving .expectChecksum 7 0x7B []).cfg.myAddr ∧
    (Instr.spin0 1 120 0x7A).csum ≠ (receiving .expectChecksum 7 0x7B []).rx.xor := by decide

theorem witness_CommandFrameWaitsElsewhere :
    State.reset.ctl ≠ .waitingForFrame ∧ State.reset.ctl ≠ .dispatching ∧ (sending 0 []).ctl ≠ .waitingForFrame ∧
    (sending 0 []).ctl ≠ .dispatching := by decide

/-- The frame `7E 01 02 00 00 00 78 7B` has been taken, and its `END` comes next. -/
def atEnd : State :=
  { receiving .expectChecksum 7 0x7B [.rxByte 0x7F] with
    rx := ⟨.expectChecksum, 7, ⟨0x01, 0x02, 0x00, 0x00, 0x00, 0x78⟩, 0x7B, 0x7B⟩ }

/-- Both clauses: the `END` byte of a received frame, and `Dispatch` of an accepted one. -/
theorem witness_StepRunsDecodedInstruction :
    atEnd.cfg.wf ∧ atEnd.ctl = .waitingForFrame ∧ atEnd.rx.state = .expectChecksum ∧ atEnd.rx.cnt = 7 ∧
    atEnd.nextEvent = some (.rxByte atEnd.cfg.stop) ∧
    decode atEnd.cfg (DispatchTable.bound atEnd.dt) (atEnd.rx.record.frameWith atEnd.cfg atEnd.rx.csum)
      = .ok (.spin0 1 120 0x7B) ∧
    (accepted 7 5 0 0 []).cfg.wf ∧ (accepted 7 5 0 0 []).ctl = .dispatching ∧
    (accepted 7 5 0 0 []).nextEvent = some .dispatch ∧
    decode Config.cfg0 (DispatchTable.bound (accepted 7 5 0 0 []).dt) (encode Config.cfg0 1 7 5) = .ok (.unknown 1 7 5 3) := by
  decide

/-- DispatchAnswersTheRequest: enabled, and not. -/
theorem witness_DispatchAnswersTheRequest :
    (accepted 2 120 0 0 [.dispatch]).cfg.wf ∧ (accepted 2 120 0 0 [.dispatch]).pending = [.dispatch] ∧
    (booted [.dispatch]).cfg.wf ∧ (booted [.dispatch]).pending = [.dispatch] := by decide

/-- TxByteSendsTheNextByte: the first byte, the last, and a block that is not replying. -/
theorem witness_TxByteSendsTheNextByte :
    (sending 0 [.txByte]).cfg.wf ∧ (sending 0 [.txByte]).ctl = .replying ∧ (sending 0 [.txByte]).pending = [.txByte] ∧
    (sending 0 [.txByte]).txBuf[(sending 0 [.txByte]).txIdx]? = some 0x7E ∧
    (sending 8 [.txByte]).txBuf[(sending 8 [.txByte]).txIdx]? = some 0x7F ∧
    ((booted [.txByte]).ctl = .replying → (booted [.txByte]).txBuf[(booted [.txByte]).txIdx]? = some 0) := by decide

theorem witness_OnlyRepliesAreEmitted :
    ∃ t, step (sending 0 []) = .next t ∧ t.out.tx = some 0x7E := ⟨_, rfl, rfl⟩

theorem witness_ReplySurvivesOtherEvents :
    (∃ t, step (sending 4 [.rxByte 0x7E]) = .next t) ∧ (sending 4 [.rxByte 0x7E]).ctl = .replying ∧
    (sending 4 [.rxByte 0x7E]).nextEvent ≠ some .reset ∧ (sending 4 [.rxByte 0x7E]).nextEvent ≠ some .txByte :=
  ⟨⟨_, rfl⟩, rfl, by decide, by decide⟩

theorem witness_AcceptedRequestIsAnswered :
    (accepted 2 120 0 0 []).cfg.wf ∧ (accepted 2 120 0 0 []).Inv ∧ (accepted 2 120 0 0 []).ctl = .dispatching ∧
    (accepted 2 120 0 0 []).pending = [] := by decide

/-- ReplyIsFinishedUnderAnySchedule, with other agents' events and a `TxByte` queued. -/
theorem witness_ReplyIsFinishedUnderAnySchedule :
    (sending 4 [.rxByte 0x7E, .txByte, .controlStep ⟨4, true, []⟩]).cfg.wf ∧
    (sending 4 [.rxByte 0x7E, .txByte, .controlStep ⟨4, true, []⟩]).Inv ∧
    (sending 4 [.rxByte 0x7E, .txByte, .controlStep ⟨4, true, []⟩]).ctl = .replying ∧
    Event.reset ∉ (sending 4 [.rxByte 0x7E, .txByte, .controlStep ⟨4, true, []⟩]).pending := by decide

/-- WholeRequestIsAccepted and TransactionIsCounted. -/
theorem witness_TransactionIsCounted :
    (booted ((encode Config.cfg0 1 2 120).map Event.rxByte)).cfg.wf ∧
    (booted ((encode Config.cfg0 1 2 120).map Event.rxByte)).Inv ∧
    (booted ((encode Config.cfg0 1 2 120).map Event.rxByte)).ctl = .waitingForFrame ∧
    (booted ((encode Config.cfg0 1 2 120).map Event.rxByte)).rx.state = .idle ∧
    (booted ((encode Config.cfg0 1 2 120).map Event.rxByte)).pending =
      (encode Config.cfg0 Config.cfg0.myAddr 2 120).map Event.rxByte := by decide

theorem witness_ResetRestoresEverything :
    (sending 3 [.reset]).cfg.wf ∧ (sending 3 [.reset]).pending = [.reset] := by decide

/-- RegisterBindsOrHalts: an unbound id, a bound one, and a late registration. -/
theorem witness_RegisterBindsOrHalts :
    (State.resetOf Config.cfg0 [.register 2 .spin]).cfg.wf ∧
    (State.resetOf Config.cfg0 [.register 2 .spin]).pending = [.register 2 .spin] ∧
    (State.resetOf Config.cfg0 [.register 2 .spin]).ctl = .registering ∧
    DispatchTable.find (State.resetOf Config.cfg0 [.register 2 .spin]).dt 2 = none ∧
    DispatchTable.find ({ State.resetOf Config.cfg0 [.register 2 .spin] with dt := [(2, .spin)] } : State).dt 2 ≠ none ∧
    (booted [.register 2 .spin]).pending = [.register 2 .spin] ∧ (booted [.register 2 .spin]).ctl ≠ .registering := by decide

theorem witness_RegistrationOrderIsIrrelevant : DispatchTable.wf [(3, .read)] ∧ (2 : Byte) ≠ 255 := by decide

/-- StartRequiresSafeHandler: with a handler for 255, without, and late. -/
theorem witness_StartRequiresSafeHandler :
    (State.resetOf Config.cfg0 [.start]).cfg.wf ∧ (State.resetOf Config.cfg0 [.start]).pending = [.start] ∧
    DispatchTable.find (State.resetOf Config.cfg0 [.start]).dt 255 = none ∧
    DispatchTable.find ({ State.resetOf Config.cfg0 [.start] with dt := [(255, .estop)] } : State).dt 255 ≠ none ∧
    (booted [.start]).ctl ≠ .registering := by decide

/-- BootWithDistinctIds: with 255 among the ids, and without. -/
theorem witness_BootWithDistinctIds :
    (State.resetOf Config.cfg0 (bootEvents Config.std)).cfg.wf ∧
    (State.resetOf Config.cfg0 (bootEvents Config.std)).pending = bootEvents Config.std ++ [] ∧
    (Config.std.map Prod.fst).Nodup ∧ (255 : Byte) ∈ Config.std.map Prod.fst ∧
    ([((2 : Byte), HandlerRef.spin)].map Prod.fst).Nodup ∧ (255 : Byte) ∉ [((2 : Byte), HandlerRef.spin)].map Prod.fst := by
  decide

/-- BootWithDuplicateId, as in P5. -/
theorem witness_BootWithDuplicateId :
    (State.resetOf Config.cfg0 (bootEvents ([(2, .spin), (255, .estop)] ++ (2, .read) :: [(9, .read)]))).cfg.wf ∧
    ([((2 : Byte), HandlerRef.spin), (255, .estop)].map Prod.fst).Nodup ∧
    ((2 : Byte), HandlerRef.read).1 ∈ [((2 : Byte), HandlerRef.spin), (255, .estop)].map Prod.fst := by decide

/-- ControlStepWritesBoardAlone: running, and not. -/
theorem witness_ControlStepWritesBoardAlone :
    (booted [.controlStep ⟨9, false, []⟩]).cfg.wf ∧
    (booted [.controlStep ⟨9, false, []⟩]).pending = [.controlStep ⟨9, false, []⟩] ∧
    (State.resetOf Config.cfg0 [.controlStep ⟨9, false, []⟩]).pending = [.controlStep ⟨9, false, []⟩] ∧
    (State.resetOf Config.cfg0 [.controlStep ⟨9, false, []⟩]).ctl = .registering := by decide

/-- IllFormedConfigurationIsRefused: both sides of its first clause, and an address for its second. -/
theorem witness_IllFormedConfigurationIsRefused :
    (match step (State.resetOf { Config.cfg0 with mask := 0 } []) with
      | .refused .illFormedConfig => true
      | _ => false) = true ∧
    nextIs (step State.reset) (fun _ => true) = true ∧ (1 : Byte) ≠ 0 ∧ (255 : Byte) ≠ 0 := by decide

theorem witness_QuiescentBlockWaits :
    State.reset.cfg.wf ∧ State.reset.pending = [] ∧ State.reset.ctl ≠ .dispatching ∧ State.reset.ctl ≠ .replying := by decide

/-- EveryStepKeepsInvariant and InvariantStatesNeverStop, in the middle of a frame. -/
theorem witness_EveryStepKeepsInvariant :
    (receiving .inFrame 0 0 [.rxByte 0x01]).Inv ∧ (receiving .inFrame 0 0 [.rxByte 0x01]).cfg.wf ∧
    nextIs (step (receiving .inFrame 0 0 [.rxByte 0x01])) (fun t => t.rx.cnt == 1) = true := by decide

/-- ControlTransfersFollowTheTable: a step that changes `ctl`. -/
theorem witness_ControlTransfersFollowTheTable :
    ∃ t, step (accepted 2 120 0 0 []) = .next t ∧ t.ctl ≠ (accepted 2 120 0 0 []).ctl := ⟨_, rfl, by decide⟩

theorem witness_TableIsFixedAfterRegistration :
    (∃ t, step (booted [.register 9 .read]) = .next t) ∧ (booted [.register 9 .read]).ctl ≠ .registering ∧
    (booted [.register 9 .read]).nextEvent ≠ some .reset := ⟨⟨_, rfl⟩, by decide, by decide⟩

theorem witness_ConfigurationNeverChanges : ∃ t, step State.reset = .next t := ⟨_, rfl⟩

theorem witness_OnlyThreeEventsWriteTheBoard :
    ∃ t, step (accepted 2 120 0 0 []) = .next t ∧ t.board ≠ (accepted 2 120 0 0 []).board := ⟨_, rfl, by decide⟩

theorem witness_HaltedIsLeftByResetOnly :
    (∃ t, step ({ State.resetOf Config.cfg0 [.start] with ctl := .halted, bootErr := some .missingSafeHandler } : State)
      = .next t) ∧
    ({ State.resetOf Config.cfg0 [.start] with ctl := .halted } : State).nextEvent ≠ some .reset := ⟨⟨_, rfl⟩, by decide⟩

/-- The premises of rule R170 hold of the spec's example board (EmergencyStopHolds), whose request is an `ESTOP`. -/
theorem witness_EmergencyStopHolds :
    (accepted 255 0 120 7 []).SafetyPremises ∧ (∃ t, step (accepted 255 0 120 7 []) = .next t) ∧
    (accepted 255 0 120 7 []).ctl = .dispatching ∧ (accepted 255 0 120 7 []).nextEvent = some .dispatch ∧
    (accepted 255 0 120 7 []).reqCmd = 255 ∧ DispatchTable.find (accepted 255 0 120 7 []).dt 255 ≠ none := by
  refine ⟨⟨?_, ?_⟩, ⟨_, rfl⟩, rfl, rfl, rfl, by decide⟩
  · intro h hh p bs
    have hh : some HandlerRef.estop = some h := hh
    cases hh
    rfl
  · intro bs x h
    have h : (bs.goal == 0) = true := h
    have h' : bs.goal = 0 := by simpa using h
    show ((if x.limit then (0 : Payload) else bs.goal) == 0) = true
    rw [h']
    cases x.limit <;> rfl

/-- Its second clause: a neutral board and a control step. -/
theorem witness_EmergencyStopHolds_kept :
    (∃ t, step (booted [.controlStep ⟨18, false, []⟩]) = .next t) ∧
    (booted [.controlStep ⟨18, false, []⟩]).nextEvent ≠ some .dispatch ∧
    (booted [.controlStep ⟨18, false, []⟩]).nextEvent ≠ some .reset ∧
    NeutralRef.holds (booted [.controlStep ⟨18, false, []⟩]).cfg.neutral (booted [.controlStep ⟨18, false, []⟩]).board = true :=
  ⟨⟨_, rfl⟩, by decide, by decide, rfl⟩

/-- CallReturnsFirstMatchingPayload: the stump P9 leaves, its timeout, noise, and M6's late reply, for the call of M6. -/
theorem witness_CallReturnsFirstMatchingPayload :
    Config.cfg0.wf ∧
    ({ Rx.reset with state := .inFrame, cnt := 2 } : Rx).listen Config.cfg0
      (Heard.timeout :: (0x33 :: encode Config.cfg0 1 2 120).map Heard.byte) =
      some (⟨.idle, 7, ⟨1, 2, 0, 0, 0, 120⟩, 0x7B, 0x7B⟩,
        .frameTooShort :: List.replicate 9 .needMore ++ [.frameOk ⟨1, 2, 120⟩]) ∧
    (∀ t, .frameOk t ∈ .frameTooShort :: List.replicate 9 RxResult.needMore ++ [.frameOk ⟨1, 2, 120⟩] →
      t.addr ≠ 1 ∨ t.cmd ≠ 3) := by
  refine ⟨by decide, by decide, ?_⟩
  intro t ht
  have : t = ⟨1, 2, 120⟩ := by simpa using ht
  subst this
  decide

/-- CallFailsWithoutMatch: M2 and M3. -/
theorem witness_CallFailsWithoutMatch :
    Rx.reset.Inv ∧
    (∀ t, .frameOk t ∈ (((Rx.reset.listen Config.cfg0 []).map Prod.snd).getD []) → t.addr ≠ 1 ∨ t.cmd ≠ 2) ∧
    (((Rx.reset.listen Config.cfg0 ([0x7E, 0x01, 0x02, 0x00, 0x00, 0x00, 0x78, 0x7A, 0x7F].map Heard.byte)).map
      Prod.snd).getD []).getLast? = some .frameCorrupt := ⟨by decide, by simp [Rx.listen], by decide⟩

/-- EagerRunSettlesAndAnswers: both start states, and L6's two requests. -/
theorem witness_EagerRunSettlesAndAnswers :
    (sending 8 []).cfg.wf ∧ (sending 8 []).Inv ∧ (sending 8 []).pending = [] ∧
    (booted []).cfg.wf ∧ (booted []).Inv ∧ (booted []).pending = [] ∧ (booted []).ctl = .waitingForFrame ∧
    (booted []).rx.state = .idle ∧
    (booted []).conversation [(2, 120), (2, 120)] =
      (encode Config.cfg0 1 2 120 ++ encode Config.cfg0 1 2 120, ⟨120, 0, []⟩) :=
  ⟨by decide, by decide, rfl, by decide, by decide, rfl, rfl, rfl, by decide⟩

end Sys2Proof.Tests
end

section
/-! PROOFS of the family `00_scope.md`: which configurations the block accepts (rule R6). -/

namespace Sys2Proof.Machine

/-- Not special, as membership (rule R8). -/
theorem special_eq_false_iff {cfg : Config} {b : Byte} :
    special cfg b = false ↔ b ∉ [cfg.start, cfg.stop, cfg.esc] := by
  simp [← Bool.not_eq_true, special_iff]

/-- Rule R6 items 1 to 3, in the spec's words: `Config.wf` spells item 2 out for the three bytes, and item 3 as "not 0". -/
theorem wf_iff_items (cfg : Config) :
    cfg.wf ↔ (cfg.start ≠ cfg.stop ∧ cfg.start ≠ cfg.esc ∧ cfg.stop ≠ cfg.esc) ∧
      (∀ b ∈ [cfg.start, cfg.stop, cfg.esc], b ^^^ cfg.mask ∉ [cfg.start, cfg.stop, cfg.esc]) ∧
      1 ≤ cfg.myAddr.toNat := by
  have images : (∀ b ∈ [cfg.start, cfg.stop, cfg.esc], b ^^^ cfg.mask ∉ [cfg.start, cfg.stop, cfg.esc]) ↔
      special cfg (cfg.start ^^^ cfg.mask) = false ∧ special cfg (cfg.stop ^^^ cfg.mask) = false ∧
        special cfg (cfg.esc ^^^ cfg.mask) = false := by
    simp only [special_eq_false_iff, List.forall_mem_cons, List.not_mem_nil, false_imp_iff, implies_true, and_true]
  have address : 1 ≤ cfg.myAddr.toNat ↔ cfg.myAddr ≠ 0 := by bv_omega
  rw [images, address]
  simp only [Config.wf, and_assoc]

/-- The reference bytes of rule R6 are well-formed with every address but 0. -/
theorem wf_reference_bytes (cfg : Config) {a : Byte} (ha : a ≠ 0) :
    { cfg with start := 0x7E, stop := 0x7F, esc := 0x7D, mask := 0x20, myAddr := a }.wf := by
  have distinct : (0x7E : Byte) ≠ 0x7F ∧ (0x7E : Byte) ≠ 0x7D ∧ (0x7F : Byte) ≠ 0x7D := by decide
  have images : ∀ b ∈ ([0x7E, 0x7F, 0x7D] : List Byte), b ^^^ 0x20 ∉ ([0x7E, 0x7F, 0x7D] : List Byte) := by decide
  have address : 1 ≤ a.toNat := by bv_omega
  exact (wf_iff_items _).2 ⟨distinct, images, address⟩

theorem rxByte_ne_refused (b : Byte) (s : State) (r : Refusal) : rxByte b s ≠ .refused r := by
  unfold rxByte
  split
  · split <;> simp
  · simp

theorem txByte_ne_refused (s : State) (r : Refusal) : txByte s ≠ .refused r := by
  unfold txByte
  split
  · split <;> simp
  · simp

/-- No event is refused: only the two byte events can stop the block at all, and they do so with a fault. -/
theorem stepEvent_ne_refused (e : Event) (s : State) (r : Refusal) : stepEvent e s ≠ .refused r := by
  cases e with
  | rxByte b => rw [stepEvent_rxByte]; exact rxByte_ne_refused b s r
  | txByte => rw [stepEvent_txByte]; exact txByte_ne_refused s r
  | dispatch => simp [stepEvent_dispatch]
  | reset | register | start | rxTimeout | controlStep => simp

/-- The check at the head of `step` is the one source of `illFormedConfig`. -/
theorem step_refuses_iff_not_wf (s : State) : step s = .refused .illFormedConfig ↔ ¬ s.cfg.wf := by
  constructor
  · intro hr hw
    cases he : s.nextEvent with
    | none => simp [step_of_none hw he] at hr
    | some e => exact stepEvent_ne_refused e s.begin _ (step_of_event hw he ▸ hr)
  · intro hn
    unfold step
    rw [if_neg hn]

/-- Settles O47: the refusal is the check of `Config.wf`, which is items 1 to 3 of rule R6. -/
theorem illFormedConfigurationIsRefused : Obligations.IllFormedConfigurationIsRefused := by
  unfold Obligations.IllFormedConfigurationIsRefused
  refine ⟨fun s => ?_, fun cfg _ ha => wf_reference_bytes cfg ha⟩
  rw [← wf_iff_items]
  exact step_refuses_iff_not_wf s

end Sys2Proof.Machine
end

section
/-! PROOFS of the family `10_state.md`: the configuration is no register (rule R14). -/

namespace Sys2Proof.Machine

/-! ### No operation writes the configuration -/

@[simp] theorem resetBlock_cfg (s : State) : (resetBlock s).cfg = s.cfg := rfl

@[simp] theorem register_cfg (id : Byte) (h : HandlerRef) (s : State) : (register id h s).cfg = s.cfg := by
  rcases register_cases id h s with ⟨_, ignored⟩ | ⟨_, _, bound⟩ | ⟨_, _, duplicate⟩
  · rw [ignored]
  · rw [bound]
  · rw [duplicate, State.abort_cfg]

@[simp] theorem start_cfg (s : State) : (start s).cfg = s.cfg := by
  rcases start_cases s with ⟨_, ignored⟩ | ⟨_, _, started⟩ | ⟨_, _, unsafeTable⟩
  · rw [ignored]
  · rw [started]
  · rw [unsafeTable, State.abort_cfg]

@[simp] theorem State.handOff_cfg (s : State) (r : Rx × RxResult) : (s.handOff r).cfg = s.cfg := by
  rcases s.handOff_cases r with taken | ⟨t, _, _, accepted⟩
  · rw [taken, State.takeRx_cfg]
  · rw [accepted, State.accept_cfg, State.takeRx_cfg]

@[simp] theorem rxTimeout_cfg (s : State) : (rxTimeout s).cfg = s.cfg := by
  rcases rxTimeout_cases s with ignored | ⟨_, _, gaveUp⟩
  · rw [ignored]
  · rw [gaveUp, State.takeRx_cfg]

@[simp] theorem controlStep_cfg (x : Sensors) (s : State) : (controlStep x s).cfg = s.cfg := by
  rcases controlStep_cases x s with ⟨_, ignored⟩ | ⟨_, ran⟩
  · rw [ignored]
  · rw [ran]

@[simp] theorem State.dispatch_cfg (s : State) (c : Byte) (p : Payload) : (s.dispatch c p).cfg = s.cfg := by
  rw [State.dispatch_eq, State.loadReply_cfg, State.respond_cfg]

/-! ### No event writes it -/

theorem Effect.cfg {s t : State} {e : Event} (h : Effect s e t) : t.cfg = s.cfg := by
  cases h with
  | reset => exact resetBlock_cfg s
  | register id g => exact register_cfg id g s
  | start => exact start_cfg s
  | receive b r => exact s.handOff_cfg r
  | timeout => exact rxTimeout_cfg s
  | control x => exact controlStep_cfg x s
  | dispatch => exact s.dispatch_cfg s.reqCmd s.reqPayload
  | tx b => exact s.sendByte_cfg b
  | discard | noDispatch | noTx => rfl

/-- Settles O54: neither taking the next event from the queue nor the event's effect writes the configuration. -/
theorem configurationNeverChanges : Obligations.ConfigurationNeverChanges := by
  unfold Obligations.ConfigurationNeverChanges
  intro s t h
  obtain ⟨_, ⟨_, rfl⟩ | ⟨e, _, effect⟩⟩ := step_next h
  · exact s.begin_cfg
  · calc t.cfg = s.begin.cfg := effect.cfg
      _ = s.cfg := s.begin_cfg

end Sys2Proof.Machine
end

section
/-! PROOFS of the family `30_encoding.md`: the layout of `encode` (rule R68) and the round trip of the streaming decoder
(rule R78). -/

namespace Sys2Proof.Machine

/-! ### The layout of a frame -/

/-- The stuffing of rule R64 with `special` written out. -/
theorem stuff_eq_ite (cfg : Config) (v : Byte) :
    stuff cfg v = if v = cfg.start ∨ v = cfg.stop ∨ v = cfg.esc then [cfg.esc, v ^^^ cfg.mask] else [v] := by
  simp only [stuff, special_iff]

/-- The fold of rule R65 as the XOR of the six bytes. -/
theorem checksum_eq_xor (a c : Byte) (p : Payload) :
    checksum a c p = a ^^^ c ^^^ p.extractLsb' 24 8 ^^^ p.extractLsb' 16 8 ^^^ p.extractLsb' 8 8 ^^^ p.extractLsb' 0 8 := by
  simp [checksum, body, payloadBytes]

/-- The stuffed body, byte by byte in wire order (rules R62, R68). -/
theorem flatMap_stuff_body (cfg : Config) (a c : Byte) (p : Payload) :
    (body a c p).flatMap (stuff cfg) =
      stuff cfg a ++ stuff cfg c ++ stuff cfg (p.extractLsb' 24 8) ++ stuff cfg (p.extractLsb' 16 8) ++
        stuff cfg (p.extractLsb' 8 8) ++ stuff cfg (p.extractLsb' 0 8) := by
  simp only [body, payloadBytes, List.flatMap_cons, List.flatMap_nil, List.append_nil, List.append_assoc]

/-- Settles O2: `encode` is the stuffed body and the checksum between the two sentinels. -/
theorem encodeFollowsLayout : Obligations.EncodeFollowsLayout := by
  unfold Obligations.EncodeFollowsLayout
  intro cfg a c p
  simp only [encode, encodeFields, flatMap_stuff_body, checksum_eq_xor, stuff_eq_ite, List.append_assoc, List.cons_append,
    List.nil_append]

/-! ### A whole frame in the decoder -/

/-- The verdict of rule R110 on record `t` that came with checksum byte `k`. -/
def Transaction.verdict (t : Transaction) (k : Byte) : RxResult :=
  if k = checksum t.addr t.cmd t.payload then .frameOk t else .frameCorrupt

/-- With its own checksum the record is accepted (rules R65, R110). -/
@[simp] theorem Transaction.verdict_checksum (t : Transaction) :
    t.verdict (checksum t.addr t.cmd t.payload) = .frameOk t := if_pos rfl

/-- The decoder's registers once the whole body of `t` has arrived: the checksum byte comes next, and the checksum register
still holds `old` (rules R16 to R19, R113). -/
def Rx.awaitingChecksum (t : Transaction) (old : Byte) : Rx :=
  ⟨.expectChecksum, 6, RxBuf.ofTransaction t, checksum t.addr t.cmd t.payload, old⟩

/-- The decoder's registers once checksum byte `k` has arrived after the body of `t`: `END` comes next (rule R109). -/
def Rx.awaitingStop (t : Transaction) (k : Byte) : Rx :=
  ⟨.expectChecksum, 7, RxBuf.ofTransaction t, checksum t.addr t.cmd t.payload, k⟩

/-- The decoder's registers after the verdict on `t` that came with checksum byte `k` (rule R110). -/
def Rx.afterVerdict (t : Transaction) (k : Byte) : Rx := { Rx.awaitingStop t k with state := .idle }

/-- Six body bytes fill `rx_buf` and sum up in `rx_xor`, whatever was left over before `START` (rule R113). -/
theorem Rx.foldl_taken_body (rx : Rx) (t : Transaction) :
    (body t.addr t.cmd t.payload).foldl Rx.taken rx.frameStart = Rx.awaitingChecksum t rx.csum := rfl

/-- The record read back from `rx_buf` is the one whose bytes it holds (rule R62). -/
theorem Rx.record_of_buf {rx : Rx} {t : Transaction} (h : rx.buf = RxBuf.ofTransaction t) : rx.record = t := by
  simp only [Rx.record, h, RxBuf.ofTransaction, payloadOf_bytes]

/-- The stuffed body of `t` after a `START` (rules R104, R105, R108). -/
theorem Rx.run_body_of_frameStart {cfg : Config} (hw : cfg.wf) (rx : Rx) (t : Transaction) :
    rx.frameStart.run cfg ((body t.addr t.cmd t.payload).flatMap (stuff cfg)) =
      some (Rx.awaitingChecksum t rx.csum,
        List.replicate ((body t.addr t.cmd t.payload).flatMap (stuff cfg)).length .needMore) := by
  rw [Rx.run_body hw _ rfl (by simp [Rx.frameStart]), Rx.foldl_taken_body]

/-- The checksum byte is latched, whatever it is (rule R109). -/
theorem Rx.step_awaitingChecksum (cfg : Config) (t : Transaction) (old k : Byte) :
    (Rx.awaitingChecksum t old).step cfg k = some (Rx.awaitingStop t k, .needMore) := rfl

/-- The `END` in its place brings the verdict (rule R110). -/
theorem Rx.step_awaitingStop (cfg : Config) (t : Transaction) (k : Byte) :
    (Rx.awaitingStop t k).step cfg cfg.stop = some (Rx.afterVerdict t k, t.verdict k) := by
  have validates :
      (Rx.awaitingStop t k).step cfg cfg.stop = some ((Rx.awaitingStop t k).finish (Rx.awaitingStop t k).record k) :=
    if_pos rfl
  rw [validates, Rx.record_of_buf rfl, Rx.finish_eq]
  rfl

/-- The two bytes after the body (rules R109, R110). -/
theorem Rx.run_checksum_stop (cfg : Config) (t : Transaction) (old k : Byte) :
    (Rx.awaitingChecksum t old).run cfg [k, cfg.stop] = some (Rx.afterVerdict t k, [.needMore, t.verdict k]) := by
  rw [Rx.run_cons (Rx.step_awaitingChecksum cfg t old k), Rx.run_cons (Rx.step_awaitingStop cfg t k)]
  rfl

/-- A whole frame in any state in which `START` opens one: after the result `r` of that `START` no byte is answered until the
verdict at `END` (rules R101 to R110, R115). -/
theorem Rx.run_frameWith {cfg : Config} (hw : cfg.wf) {rx : Rx} {r : RxResult}
    (opens : rx.step cfg cfg.start = some (rx.frameStart, r)) (t : Transaction) (k : Byte) :
    rx.run cfg (t.frameWith cfg k) =
      some (Rx.afterVerdict t k, r :: List.replicate ((t.frameWith cfg k).length - 2) .needMore ++ [t.verdict k]) := by
  have count : (t.frameWith cfg k).length - 2 = ((body t.addr t.cmd t.payload).flatMap (stuff cfg)).length + 1 := by
    simp only [Transaction.frameWith, encodeFields, List.length_cons, List.length_append, List.length_nil]
    omega
  have rest := Rx.run_append (Rx.run_body_of_frameStart hw rx t) (Rx.run_checksum_stop cfg t rx.csum k)
  rw [count, List.replicate_succ', Transaction.frameWith, encodeFields, Rx.run_cons opens, rest]
  simp only [Option.map_some, List.cons_append, List.append_assoc, List.nil_append]

/-- A whole frame in `Idle`: every byte but the last is answered `NeedMore` (rules R65, R78, R110). -/
theorem Rx.run_frameWith_of_idle {cfg : Config} (hw : cfg.wf) {rx : Rx} (hi : rx.state = .idle) (t : Transaction)
    (k : Byte) :
    rx.run cfg (t.frameWith cfg k) =
      some (Rx.afterVerdict t k, List.replicate ((t.frameWith cfg k).length - 1) .needMore ++ [t.verdict k]) := by
  have opens : rx.step cfg cfg.start = some (rx.frameStart, .needMore) := by rw [Rx.step_idle hi, if_pos rfl]
  have count : (t.frameWith cfg k).length - 1 = (t.frameWith cfg k).length - 2 + 1 := by
    simp only [Transaction.frameWith, encodeFields, List.length_cons, List.length_append]
    omega
  rw [Rx.run_frameWith hw opens, count, List.replicate_succ]

/-- Settles O14: the frame of `t` is its body with its own checksum, so the verdict is `FrameOk` of `t`. -/
theorem streamingRoundTrip : Obligations.StreamingRoundTrip := by
  unfold Obligations.StreamingRoundTrip
  intro cfg rx t hw hi
  have accepted := Rx.run_frameWith_of_idle hw hi t (checksum t.addr t.cmd t.payload)
  rw [Transaction.verdict_checksum] at accepted
  exact ⟨Rx.afterVerdict t (checksum t.addr t.cmd t.payload), rfl, accepted⟩

end Sys2Proof.Machine
end

section
/-! PROOFS of the family `40_frame_decoder.md`: the decoder event by event (rules R101 to R114) and its byte budget
(rule R115). -/

namespace Sys2Proof.Machine

/-! ### The byte budget -/

/-- Inversion of a run over at least one byte. -/
theorem Rx.run_cons_eq_some {cfg : Config} {rx q : Rx} {b : Byte} {bs : List Byte} {rs : List RxResult}
    (h : rx.run cfg (b :: bs) = some (q, rs)) :
    ∃ rx' r rs', rx.step cfg b = some (rx', r) ∧ rx'.run cfg bs = some (q, rs') ∧ rs = r :: rs' := by
  cases hstep : rx.step cfg b with
  | none => simp [Rx.run, hstep] at h
  | some move =>
    obtain ⟨rx', r⟩ := move
    rw [Rx.run_cons hstep, Option.map_eq_some_iff] at h
    obtain ⟨⟨q', rs'⟩, hrun, heq⟩ := h
    obtain ⟨rfl, rfl⟩ := Prod.mk.inj heq
    exact ⟨rx', r, rs', rfl, hrun, rfl⟩

/-- How many further bytes a decoder in a frame can still answer with `NeedMore` (rule R115): two for each missing body byte,
of which `Escaped` has used one, and one for the checksum. The closing byte is not among them: it always gets a verdict. -/
def Rx.budget (rx : Rx) : Nat :=
  match rx.state with
  | .idle => 0
  | .inFrame => 2 * (6 - rx.cnt) + 1
  | .escaped => 2 * (6 - rx.cnt)
  | .expectChecksum => 7 - rx.cnt

theorem Rx.taken_state_ne_idle (rx : Rx) (v : Byte) : (rx.taken v).state ≠ .idle := by
  unfold Rx.taken
  split <;> simp

/-- A body byte uses up its two bytes of the budget, the sixth like the others (rule R113). -/
theorem Rx.budget_taken {rx : Rx} (hc : rx.cnt ≤ 5) (v : Byte) : (rx.taken v).budget = 2 * (5 - rx.cnt) + 1 := by
  by_cases sixth : rx.cnt + 1 = 6
  · have last : rx.cnt = 5 := by omega
    simp [Rx.budget, Rx.taken, last]
  · simp only [Rx.budget, Rx.taken, if_neg sixth]
    omega

/-- Inside a frame every `NeedMore` stays inside it and costs budget: the measure behind rule R115. -/
theorem Rx.budget_lt_of_needMore {cfg : Config} {rx rx' : Rx} {b : Byte} (hf : rx.state ≠ .idle)
    (h : rx.step cfg b = some (rx', .needMore)) : rx'.state ≠ .idle ∧ rx'.budget < rx.budget := by
  cases Rx.move_of_step h with
  | opened hs | noise hs => exact absurd hs hf
  | escape hs => simp [Rx.budget, hs]
  | plain hs _ hc =>
    refine ⟨rx.taken_state_ne_idle b, ?_⟩
    rw [Rx.budget_taken hc]
    simp only [Rx.budget, hs]
    omega
  | image hs _ hc =>
    refine ⟨rx.taken_state_ne_idle _, ?_⟩
    rw [Rx.budget_taken hc]
    simp only [Rx.budget, hs]
    omega
  | latch hs hc => simp [Rx.budget, hs, hc]

/-- Bytes that all get `NeedMore` inside a frame are no more than the budget (rule R115). -/
theorem Rx.length_le_budget {cfg : Config} (bytes : List Byte) {rx q : Rx} {rs : List RxResult} (hf : rx.state ≠ .idle)
    (h : rx.run cfg bytes = some (q, rs)) (silent : ∀ r ∈ rs, r = .needMore) : bytes.length ≤ rx.budget := by
  induction bytes generalizing rx rs with
  | nil => exact Nat.zero_le _
  | cons b bs ih =>
    obtain ⟨rx', r, rs', hstep, hrun, rfl⟩ := Rx.run_cons_eq_some h
    obtain ⟨rfl, later⟩ := List.forall_mem_cons.1 silent
    obtain ⟨hf', less⟩ := Rx.budget_lt_of_needMore hf hstep
    calc (b :: bs).length = bs.length + 1 := List.length_cons
      _ ≤ rx'.budget + 1 := Nat.succ_le_succ (ih hf' hrun later)
      _ ≤ rx.budget := less

/-- Settles O18: right after a `START` the budget is thirteen, so of fourteen bytes one gets a verdict. -/
theorem verdictWithinByteBudget : Obligations.VerdictWithinByteBudget := by
  unfold Obligations.VerdictWithinByteBudget
  intro cfg rx rx' bytes rs _ hs hc hlen hrun
  by_contra noVerdict
  have silent : ∀ r ∈ rs, r = .needMore := fun r hr => by_contra fun hne => noVerdict ⟨r, hr, hne⟩
  have within : bytes.length ≤ rx.budget := Rx.length_le_budget bytes (by simp [hs]) hrun silent
  have thirteen : rx.budget = 13 := by simp [Rx.budget, hs, hc]
  omega

/-! ### One byte in each state of the decoder -/

/-- In `InFrame` (rules R102 to R105). -/
theorem Rx.step_inFrame {cfg : Config} {rx : Rx} (hs : rx.state = .inFrame) (hc : rx.cnt ≤ 5) (b : Byte) :
    rx.step cfg b = some
      (if b = cfg.start then (rx.frameStart, .frameTooShort)
      else if b = cfg.stop then ({ rx with state := .idle }, .frameTooShort)
      else if b = cfg.esc then ({ rx with state := .escaped }, .needMore)
      else (rx.taken b, .needMore)) := by
  simp only [Rx.step, hs, Rx.stepInFrame, Rx.takeBody_of_le hc]
  repeat' split
  all_goals rfl

/-- In `Escaped` (rules R106 to R108, R122). -/
theorem Rx.step_escaped {cfg : Config} {rx : Rx} (hs : rx.state = .escaped) (hc : rx.cnt ≤ 5) (b : Byte) :
    rx.step cfg b = some
      (if b = cfg.start then (rx.frameStart, .frameTooShort)
      else if b = cfg.stop then ({ rx with state := .idle }, .frameTooShort)
      else if special cfg (b ^^^ cfg.mask) = true then (rx.taken (b ^^^ cfg.mask), .needMore)
      else ({ rx with state := .idle }, .frameCorrupt)) := by
  simp only [Rx.step, hs, Rx.stepEscaped, Rx.takeBody_of_le hc]
  repeat' split
  all_goals rfl

/-- At the checksum position (rule R109). -/
theorem Rx.step_checksum {cfg : Config} {rx : Rx} (hs : rx.state = .expectChecksum) (hc : rx.cnt = 6) (b : Byte) :
    rx.step cfg b = some ({ rx with csum := b, cnt := 7 }, .needMore) := by
  simp only [Rx.step, hs, Rx.stepChecksum, hc, if_true]

/-- At the position of `END` (rules R110 to R112). -/
theorem Rx.step_closing {cfg : Config} {rx : Rx} (hs : rx.state = .expectChecksum) (hc : rx.cnt = 7) (b : Byte) :
    rx.step cfg b = some
      (if b = cfg.stop then
        ({ rx with state := .idle }, if rx.csum = rx.xor then .frameOk rx.record else .frameCorrupt)
      else if b = cfg.start then (rx.frameStart, .frameTooShort)
      else ({ rx with state := .idle }, .frameTooShort)) := by
  have position : rx.step cfg b = rx.stepChecksum cfg b := by simp only [Rx.step, hs]
  have counted : rx.cnt ≠ 6 := by omega
  rw [position, Rx.stepChecksum, if_neg counted, if_pos hc, Rx.finish_eq]
  repeat' split
  all_goals rfl

/-- `Rx.taken` with the sixth byte told by the count before it (rule R105). -/
theorem Rx.taken_eq (rx : Rx) (v : Byte) :
    rx.taken v =
      { rx with
        state := if rx.cnt = 5 then .expectChecksum else .inFrame
        cnt := rx.cnt + 1
        buf := rx.buf.put rx.cnt v
        xor := rx.xor ^^^ v } := by
  simp only [Rx.taken, Nat.reduceEqDiff]

/-! ### One event of the block -/

/-- What an event does to the state whose queue it has left is what taking it does (log 7). -/
theorem State.takes_of_stepEvent {s t : State} {e : Event}
    (h : stepEvent e s.begin = .next { t with pending := s.pending.tail }) : s.takes e t := by
  intro hw rest hp
  rw [step_of_event hw (State.nextEvent_cons hp), h, hp, List.tail_cons]

/-- The hand-off does not touch the queue and overwrites the output, so taking the event first makes no other difference
(logs 7, 8). -/
theorem State.begin_handOff (s : State) (r : Rx × RxResult) :
    s.begin.handOff r = { s.handOff r with pending := s.pending.tail } := by
  obtain ⟨rx', result⟩ := r
  cases result with
  | frameOk t =>
    by_cases mine : t.addr = s.cfg.myAddr
    · rw [State.handOff_mine s.begin rx' t mine, State.handOff_mine s rx' t mine]
      rfl
    · rw [State.handOff_foreign s.begin rx' t mine, State.handOff_foreign s rx' t mine]
      rfl
  | needMore | frameCorrupt | frameTooShort => rfl

/-- In `WaitingForFrame` a received byte is one step of the decoder, handed off (rule R100). -/
theorem State.takes_rxByte {s : State} {b : Byte} {r : Rx × RxResult} (hctl : s.ctl = .waitingForFrame)
    (h : s.rx.step s.cfg b = some r) : s.takes (.rxByte b) (s.handOff r) := by
  refine State.takes_of_stepEvent ?_
  rw [stepEvent_rxByte, rxByte, State.begin_ctl, if_pos hctl, State.begin_rx, State.begin_cfg, h, ← State.begin_handOff]

/-- Settles O7: the one step of `Idle`, handed off. -/
theorem idleSkipsToStart : Obligations.IdleSkipsToStart := by
  unfold Obligations.IdleSkipsToStart
  intro s b hctl hs
  have next := State.takes_rxByte hctl (Rx.step_idle hs b)
  by_cases hstart : b = s.cfg.start
  · rw [if_pos hstart] at next ⊢
    exact next
  · rw [if_neg hstart] at next ⊢
    exact next

/-- Settles O8: the four clauses of `InFrame`, each handed off. -/
theorem inFrameTakesBodyBytes : Obligations.InFrameTakesBodyBytes := by
  unfold Obligations.InFrameTakesBodyBytes
  intro s b hctl hs hc
  have next := State.takes_rxByte hctl (Rx.step_inFrame hs hc b)
  rw [apply_ite s.handOff, apply_ite s.handOff, apply_ite s.handOff, Rx.taken_eq] at next
  exact next

/-- Settles O9: the four clauses of `Escaped`, each handed off. -/
theorem escapedTakesImagesOnly : Obligations.EscapedTakesImagesOnly := by
  unfold Obligations.EscapedTakesImagesOnly
  intro s b hctl hs hc
  have next := State.takes_rxByte hctl (Rx.step_escaped hs hc b)
  rw [apply_ite s.handOff, apply_ite s.handOff, apply_ite s.handOff, Rx.taken_eq] at next
  exact next

/-- Settles O10: the latching step, handed off. -/
theorem checksumByteIsLatched : Obligations.ChecksumByteIsLatched := by
  unfold Obligations.ChecksumByteIsLatched
  intro s b hctl hs hc
  exact State.takes_rxByte hctl (Rx.step_checksum hs hc b)

/-- Settles O11: only an `END` with the right checksum reaches the address filter of the hand-off. -/
theorem closingByteValidates : Obligations.ClosingByteValidates := by
  unfold Obligations.ClosingByteValidates
  intro s b hctl hs hc t
  have next := State.takes_rxByte hctl (Rx.step_closing hs hc b)
  have record : s.rx.record = t := rfl
  by_cases hstop : b = s.cfg.stop
  · rw [if_pos hstop] at next ⊢
    by_cases hsum : s.rx.csum = s.rx.xor
    · rw [if_pos hsum, record] at next
      rw [if_pos hsum]
      by_cases mine : t.addr = s.cfg.myAddr
      · rw [State.handOff_mine _ _ _ mine] at next
        rw [if_pos mine]
        exact next
      · rw [State.handOff_foreign _ _ _ mine] at next
        rw [if_neg mine]
        exact next
    · rw [if_neg hsum] at next ⊢
      exact next
  by_cases hstart : b = s.cfg.start
  · rw [if_neg hstop, if_pos hstart] at next ⊢
    exact next
  · rw [if_neg hstop, if_neg hstart] at next ⊢
    exact next

/-- Settles O12: the condition of rule R114 is read, and its error raised, once the event has left the queue. -/
theorem timeoutGivesFrameUp : Obligations.TimeoutGivesFrameUp := by
  unfold Obligations.TimeoutGivesFrameUp
  intro s
  refine State.takes_of_stepEvent ?_
  rw [stepEvent_rxTimeout, rxTimeout, State.begin_ctl, State.begin_rx]
  by_cases inProgress : s.ctl = .waitingForFrame ∧ s.rx.state ≠ .idle
  · rw [if_pos inProgress, if_pos inProgress]
    rfl
  · rw [if_neg inProgress, if_neg inProgress]
    rfl

end Sys2Proof.Machine
end

section
/-! PROOFS of the family `42_dispatch_table.md`: registration and start (rules R140 to R143), and what the table selects as
the answer (rules R147, R149). -/

namespace Sys2Proof.Machine

/-! ### The answer the table selects -/

/-- A bound id selects its handler (rule R147). -/
theorem State.selected_of_bound {s : State} {c : Byte} {h : HandlerRef} (bound : DispatchTable.find s.dt c = some h)
    (p : Payload) : s.selected c p = HandlerRef.run h c p s.board := by
  rw [State.selected, bound]

/-- An unbound id selects the default (rule R149). -/
theorem State.selected_of_unbound {s : State} {c : Byte} (unbound : DispatchTable.find s.dt c = none) (p : Payload) :
    s.selected c p = ⟨0, .unknownCommand, s.board⟩ := by
  rw [State.selected, unbound]

/-- Writing a result and loading the reply that carries it is answering with it (rules R131, R146). -/
theorem State.loadReply_respond (s : State) (c : Byte) (r : HandlerResult) :
    (s.respond r).loadReply c = s.answered c r := rfl

/-- The multiplexer answers with what the table selects (rules R146, R150). -/
theorem State.dispatch_eq_answered (s : State) (c : Byte) (p : Payload) :
    s.dispatch c p = s.answered c (s.selected c p) := by
  rw [State.dispatch_eq, State.loadReply_respond]
  rfl

/-- Every accepted command frame is answered with what the table selects for its id (rules R146, R150). -/
theorem exec_answers_selected (i : Instr) {s : State} (hctl : s.ctl = .dispatching) :
    exec i s = .next (s.answered i.id (s.selected i.id i.payload)) := by
  rw [exec_dispatching i hctl, State.dispatch_eq_answered]

/-- Settles O24: the table selects the bound handler. -/
theorem cmdRunsBoundHandler : Obligations.CmdRunsBoundHandler := by
  unfold Obligations.CmdRunsBoundHandler
  intro s a c p k h hctl bound
  rw [← State.selected_of_bound bound]
  exact exec_answers_selected (.cmd a c p k) hctl

/-- Settles O25: the table selects the default. -/
theorem unknownIsAnsweredWithZero : Obligations.UnknownIsAnsweredWithZero := by
  unfold Obligations.UnknownIsAnsweredWithZero
  intro s a c p k hctl unbound
  rw [← State.selected_of_unbound unbound p]
  exact exec_answers_selected (.unknown a c p k) hctl

/-! ### Registration and start -/

/-- Settles O40: the three cases of `Register`, read once the event has left the queue. -/
theorem registerBindsOrHalts : Obligations.RegisterBindsOrHalts := by
  unfold Obligations.RegisterBindsOrHalts
  intro s id h
  refine State.takes_of_stepEvent ?_
  rw [stepEvent_register]
  rcases register_cases id h s.begin with ⟨late, ignored⟩ | ⟨booting, free, bound⟩ | ⟨booting, taken, duplicate⟩
  · rw [State.begin_ctl] at late
    rw [ignored, if_neg late]
    rfl
  · rw [State.begin_ctl] at booting
    rw [State.begin_dt] at free
    rw [bound, if_pos booting, if_pos free]
    rfl
  · rw [State.begin_ctl] at booting
    rw [State.begin_dt] at taken
    rw [duplicate, if_pos booting, if_neg taken]
    rfl

/-- Settles O43: the three cases of `Start`, read once the event has left the queue. -/
theorem startRequiresSafeHandler : Obligations.StartRequiresSafeHandler := by
  unfold Obligations.StartRequiresSafeHandler
  intro s
  refine State.takes_of_stepEvent ?_
  rw [stepEvent_start]
  rcases start_cases s.begin with ⟨late, ignored⟩ | ⟨booting, safe, started⟩ | ⟨booting, noSafe, aborted⟩
  · rw [State.begin_ctl] at late
    rw [ignored, if_neg late]
    rfl
  · rw [State.begin_ctl] at booting
    rw [State.begin_dt] at safe
    rw [started, if_pos booting, if_pos safe]
    rfl
  · rw [State.begin_ctl] at booting
    rw [State.begin_dt] at noSafe
    rw [aborted, if_pos booting, if_neg (not_not_intro noSafe)]
    rfl

end Sys2Proof.Machine
end

section
/-! PROOFS of the family `43_runtime_loop.md`: the control transfers (rule R160). -/

namespace Sys2Proof.Machine

/-! ### The table of control transfers -/

/-- The table of rule R160, one constructor per row: `CtlEdge s e c` when event `e`, taken at `s`, moves `ctl` to `c`. -/
inductive CtlEdge (s : State) : Event → Ctl → Prop where
  | reset : CtlEdge s .reset .registering
  | duplicate (id : Byte) (h : HandlerRef) (hc : s.ctl = .registering) (taken : DispatchTable.find s.dt id ≠ none) :
      CtlEdge s (.register id h) .halted
  | started (hc : s.ctl = .registering) (safe : DispatchTable.find s.dt 255 ≠ none) : CtlEdge s .start .waitingForFrame
  | noSafe (hc : s.ctl = .registering) (missing : DispatchTable.find s.dt 255 = none) : CtlEdge s .start .halted
  | accepted (b : Byte) (rx' : Rx) (T : Transaction) (hc : s.ctl = .waitingForFrame)
      (verdict : s.rx.step s.cfg b = some (rx', .frameOk T)) (mine : T.addr = s.cfg.myAddr) :
      CtlEdge s (.rxByte b) .dispatching
  | answered (hc : s.ctl = .dispatching) : CtlEdge s .dispatch .replying
  | sent (hc : s.ctl = .replying) (last : s.txIdx + 1 = s.txLen) : CtlEdge s .txByte .waitingForFrame

/-! ### The edges each event can take -/

/-- `Register` moves `ctl` on a duplicate id only (rule R141). -/
theorem register_ctl_or_edge (id : Byte) (h : HandlerRef) (s : State) :
    (register id h s).ctl = s.ctl ∨ CtlEdge s (.register id h) (register id h s).ctl := by
  rcases register_cases id h s with ⟨_, ignored⟩ | ⟨_, _, bound⟩ | ⟨hc, taken, halted⟩
  · rw [ignored]
    exact .inl rfl
  · rw [bound]
    exact .inl rfl
  · rw [halted, State.abort_ctl]
    exact .inr (.duplicate id h hc taken)

/-- `Start` moves `ctl` in `Registering` only, and entry 255 tells where to (rule R143). -/
theorem start_ctl_or_edge (s : State) : (start s).ctl = s.ctl ∨ CtlEdge s .start (start s).ctl := by
  rcases start_cases s with ⟨_, ignored⟩ | ⟨hc, safe, running⟩ | ⟨hc, missing, halted⟩
  · rw [ignored]
    exact .inl rfl
  · rw [running]
    exact .inr (.started hc safe)
  · rw [halted, State.abort_ctl]
    exact .inr (.noSafe hc missing)

/-- A consumed byte moves `ctl` only by completing a valid frame for this board (rules R161, R162, R207). -/
theorem handOff_ctl_or_edge {s : State} {b : Byte} {r : Rx × RxResult} (hc : s.ctl = .waitingForFrame)
    (hr : s.rx.step s.cfg b = some r) :
    (s.handOff r).ctl = s.ctl ∨ CtlEdge s (.rxByte b) (s.handOff r).ctl := by
  rcases s.handOff_cases r with turnedAway | ⟨T, verdict, mine, accepted⟩
  · rw [turnedAway, State.takeRx_ctl]
    exact .inl rfl
  · rw [accepted, State.accept_ctl]
    exact .inr (.accepted b r.1 T hc (by rw [hr, ← verdict]) mine)

/-- A sent byte moves `ctl` only when it is the last one (rules R132, R133). -/
theorem sendByte_ctl_or_edge {s : State} (hc : s.ctl = .replying) (b : Byte) :
    (s.sendByte b).ctl = s.ctl ∨ CtlEdge s .txByte (s.sendByte b).ctl := by
  rw [State.sendByte_ctl]
  by_cases last : s.txIdx + 1 = s.txLen
  · rw [if_pos last]
    exact .inr (.sent hc last)
  · rw [if_neg last]
    exact .inl rfl

/-- `RxTimeout` gives up a frame and nothing more (rule R114). -/
@[simp] theorem rxTimeout_ctl (s : State) : (rxTimeout s).ctl = s.ctl := by
  rcases rxTimeout_cases s with ignored | ⟨_, _, gaveUp⟩
  · rw [ignored]
  · rw [gaveUp, State.takeRx_ctl]

/-- `ControlStep` is no control transfer (rule R167). -/
@[simp] theorem controlStep_ctl (x : Sensors) (s : State) : (controlStep x s).ctl = s.ctl := by
  rcases controlStep_cases x s with ⟨_, ignored⟩ | ⟨_, ran⟩
  · rw [ignored]
  · rw [ran]

/-- Everything dispatched is answered (rule R163). -/
@[simp] theorem State.dispatch_ctl (s : State) (c : Byte) (p : Payload) : (s.dispatch c p).ctl = .replying := by
  rw [State.dispatch_eq, State.loadReply_ctl]

/-- Every event leaves `ctl` as it is or takes an edge of the table (rule R160). -/
theorem Effect.ctl_or_edge {s t : State} {e : Event} (h : Effect s e t) : t.ctl = s.ctl ∨ CtlEdge s e t.ctl := by
  cases h with
  | reset => exact .inr .reset
  | register id g => exact register_ctl_or_edge id g s
  | start => exact start_ctl_or_edge s
  | receive b r hc hr => exact handOff_ctl_or_edge hc hr
  | timeout => exact .inl (rxTimeout_ctl s)
  | control x => exact .inl (controlStep_ctl x s)
  | dispatch hc =>
    rw [State.dispatch_ctl]
    exact .inr (.answered hc)
  | tx b hc => exact sendByte_ctl_or_edge hc b
  | discard | noDispatch | noTx => exact .inl rfl

/-! ### The edges of a step -/

/-- Taking the event from the queue changes nothing that the table reads (logs 7, 8). -/
theorem CtlEdge.of_begin {s : State} {e : Event} {c : Ctl} (h : CtlEdge s.begin e c) : CtlEdge s e c := by
  cases h with
  | reset => exact .reset
  | duplicate id g hc taken => exact .duplicate id g hc taken
  | started hc safe => exact .started hc safe
  | noSafe hc missing => exact .noSafe hc missing
  | accepted b rx' T hc verdict mine => exact .accepted b rx' T hc verdict mine
  | answered hc => exact .answered hc
  | sent hc last => exact .sent hc last

/-- A step that changes `ctl` takes the edge of its event. -/
theorem edge_of_step {s t : State} (h : step s = .next t) (changed : t.ctl ≠ s.ctl) :
    ∃ e, s.nextEvent = some e ∧ CtlEdge s e t.ctl := by
  obtain ⟨_, ⟨_, rfl⟩ | ⟨e, next, effect⟩⟩ := step_next h
  · exact absurd s.begin_ctl changed
  · rcases effect.ctl_or_edge with kept | edge
    · exact absurd (kept.trans s.begin_ctl) changed
    · exact ⟨e, next, edge.of_begin⟩

/-- Settles O52: the edge the step takes is one of the seven rows. -/
theorem controlTransfersFollowTheTable : Obligations.ControlTransfersFollowTheTable := by
  unfold Obligations.ControlTransfersFollowTheTable
  intro s t h changed
  obtain ⟨e, next, edge⟩ := edge_of_step h changed
  generalize t.ctl = c at edge ⊢
  cases edge with
  | reset => exact .inl ⟨next, rfl⟩
  | duplicate id g hc taken => exact .inr (.inl ⟨hc, rfl, id, g, next, taken⟩)
  | started hc safe => exact .inr (.inr (.inl ⟨hc, rfl, next, safe⟩))
  | noSafe hc missing => exact .inr (.inr (.inr (.inl ⟨hc, rfl, next, missing⟩)))
  | accepted b rx' T hc verdict mine =>
    exact .inr (.inr (.inr (.inr (.inl ⟨hc, rfl, b, rx', T, next, verdict, mine⟩))))
  | answered hc => exact .inr (.inr (.inr (.inr (.inr (.inl ⟨hc, rfl, next⟩)))))
  | sent hc last => exact .inr (.inr (.inr (.inr (.inr (.inr ⟨hc, rfl, next, last⟩)))))

end Sys2Proof.Machine
end

section
/-! PROOFS of the family `70_reset_and_hazards.md`: `Reset` in every state (rule R230). -/

namespace Sys2Proof.Machine

/-- Resetting a state whose event has been taken: of that state only the configuration and the rest of the queue are read. -/
theorem resetBlock_begin (s : State) : resetBlock s.begin = State.resetOf s.cfg s.pending.tail := by
  rw [resetBlock, State.begin_cfg, State.begin_pending]

/-- Settles O39: no condition on the control state is read, and `State.resetOf` is the reset table of rule R33. -/
theorem resetRestoresEverything : Obligations.ResetRestoresEverything := by
  unfold Obligations.ResetRestoresEverything
  intro s
  refine State.takes_of_stepEvent ?_
  rw [stepEvent_reset, resetBlock_begin]
  rfl

end Sys2Proof.Machine
end

section
/-! PROOFS of the family 'other', the special bytes of a well-formed configuration differ (rule R6 item 1). -/

namespace Sys2Proof

theorem Config.wf.stop_ne_start {cfg : Config} (hw : cfg.wf) : cfg.stop ≠ cfg.start := hw.1.symm

theorem Config.wf.esc_ne_start {cfg : Config} (hw : cfg.wf) : cfg.esc ≠ cfg.start := hw.2.1.symm

theorem Config.wf.esc_ne_stop {cfg : Config} (hw : cfg.wf) : cfg.esc ≠ cfg.stop := hw.2.2.1.symm

end Sys2Proof
end

section
/-! PROOFS of the family 'other', the encoding: reading and writing a whole frame (rules R61 to R72, R79), its length
(rule R70), its sentinels (rule R64) and its checksum (rule R65). -/

namespace Sys2Proof.Machine

/-! ### Reading back what was written -/

/-- The fields of a frame are read back whatever they are (rules R61, R71). -/
theorem decodeFields_encodeFields {cfg : Config} (hw : cfg.wf) (f : Fields) :
    decodeFields cfg (encodeFields cfg f) = .ok f := by
  have unstuffed := takeBytes_stuff hw (body f.addr f.id f.payload) [f.csum, cfg.stop]
  rw [body_length] at unstuffed
  simp only [encodeFields, decodeFields, if_true, unstuffed]
  simp only [body, payloadBytes, payloadOf_bytes, if_true]

/-- A frame decodes to the class of its fields (rule R72). -/
theorem decode_encodeFields {cfg : Config} (hw : cfg.wf) (bound : Byte → Bool) (f : Fields) :
    decode cfg bound (encodeFields cfg f) = .ok (classify bound f) := by
  rw [decode, decodeFields_encodeFields hw]

/-- The class of a well-formed instruction's fields is the instruction (rule R72). -/
theorem classify_fields_of_wellFormed {bound : Byte → Bool} {i : Instr} (hi : i.WellFormed bound) :
    classify bound i.fields = i := by
  cases i with
  | estop a p k => exact Sys2Proof.Laws.ClassOf.estop a p k bound hi
  | cmd a c p k => exact Sys2Proof.Laws.ClassOf.cmd a c p k bound hi
  | unknown a c p k => exact Sys2Proof.Laws.ClassOf.unknown a c p k bound hi
  | spin0 a p k => exact Sys2Proof.Laws.ClassOf.spin0 a p k bound hi

/-- Settles O3: the fields survive the wire, and they determine the class. -/
theorem decodeInvertsEncode : Obligations.DecodeInvertsEncode := by
  unfold Obligations.DecodeInvertsEncode
  intro cfg bound i hw hi
  rw [encodeInstr, decode_encodeFields hw, classify_fields_of_wellFormed hi]

/-! ### Only what was written is read -/

/-- The body spelled by six bytes is those six bytes (rule R62). -/
theorem body_payloadOf (a c d2 d3 d4 d5 : Byte) : body a c (payloadOf d2 d3 d4 d5) = [a, c, d2, d3, d4, d5] := by
  obtain ⟨h2, h3, h4, h5⟩ := bytes_payloadOf d2 d3 d4 d5
  rw [body, payloadBytes, h2, h3, h4, h5]

/-- A byte sequence that is read as fields is the frame of those fields (rule R71). -/
theorem encodeFields_of_decodeFields {cfg : Config} {bytes : List Byte} {f : Fields}
    (h : decodeFields cfg bytes = .ok f) : encodeFields cfg f = bytes := by
  unfold decodeFields at h
  split at h
  · cases h
  · rename_i b rest
    split at h
    · rename_i opened
      split at h
      · cases h
      · rename_i a c p3 p2 p1 p0 k e tail taken
        split at h
        · rename_i closed
          split at h
          · rename_i ended
            cases h
            obtain ⟨_, hrest⟩ := takeBytes_ok taken
            rw [encodeFields, body_payloadOf, hrest, opened, closed, ended]
          · cases h
        · cases h
      · cases h
    · cases h

/-- The class of a frame is well-formed on the board that classifies it (rule R72). -/
theorem classify_wellFormed (bound : Byte → Bool) (f : Fields) : (classify bound f).WellFormed bound := by
  unfold classify
  by_cases stop : f.id = 255
  · rw [if_pos stop]
    trivial
  · rw [if_neg stop]
    cases isBound : bound f.id with
    | false => exact ⟨stop, isBound⟩
    | true =>
      by_cases spin : f.id = 2
      · rw [if_pos rfl, if_pos spin]
        exact (congrArg bound spin).symm.trans isBound
      · rw [if_pos rfl, if_neg spin]
        exact ⟨stop, spin, isBound⟩

/-- Settles O4: the fields that were read spell the bytes, and classifying drops none of them. -/
theorem onlyEncodingsDecode : Obligations.OnlyEncodingsDecode := by
  unfold Obligations.OnlyEncodingsDecode
  intro cfg bound bytes i _ h
  cases hf : decodeFields cfg bytes with
  | error e => simp [decode, hf] at h
  | ok f =>
    simp only [decode, hf, Except.ok.injEq] at h
    subst h
    refine ⟨classify_wellFormed bound f, ?_⟩
    rw [encodeInstr, classify_fields, encodeFields_of_decodeFields hf]

/-! ### The length and the sentinels of a frame -/

/-- Each special byte costs one escape (rules R64, R70). -/
theorem length_flatMap_stuff (cfg : Config) (vs : List Byte) :
    (vs.flatMap (stuff cfg)).length = vs.length + vs.countP (special cfg) := by
  induction vs with
  | nil => rfl
  | cons v vs ih =>
    rw [List.flatMap_cons, List.length_append, ih, stuff_length, List.countP_cons, List.length_cons]
    split <;> omega

/-- The length of a frame by its special bytes (rule R70). -/
theorem length_encode (cfg : Config) (a c : Byte) (p : Payload) :
    (encode cfg a c p).length = 9 + (body a c p).countP (special cfg) := by
  simp only [encode, encodeFields, List.length_cons, List.length_append, List.length_nil, length_flatMap_stuff, body_length]
  omega

theorem countP_body_le (cfg : Config) (a c : Byte) (p : Payload) : (body a c p).countP (special cfg) ≤ 6 :=
  List.countP_le_length

/-- Settles O5: nine bytes and one more for each of at most six special bytes. -/
theorem frameLengthCountsSpecials : Obligations.FrameLengthCountsSpecials := by
  unfold Obligations.FrameLengthCountsSpecials
  intro cfg a c p
  exact ⟨length_encode cfg a c p, countP_body_le cfg a c p⟩

/-- A frame is 9 to 15 bytes long (rule R70). -/
theorem length_encode_bounds (cfg : Config) (a c : Byte) (p : Payload) :
    9 ≤ (encode cfg a c p).length ∧ (encode cfg a c p).length ≤ 15 := by
  have specials := countP_body_le cfg a c p
  rw [length_encode]
  omega

/-- No byte of a stuffed list is a sentinel (rule R64). -/
theorem flatMap_stuff_mem {cfg : Config} (hw : cfg.wf) {vs : List Byte} {b : Byte} (hb : b ∈ vs.flatMap (stuff cfg)) :
    b ≠ cfg.start ∧ b ≠ cfg.stop := by
  obtain ⟨v, _, hv⟩ := List.mem_flatMap.1 hb
  exact stuff_mem hw hv

/-- Settles O6: the raw bytes are those of the stuffed body. -/
theorem stuffedBodyHoldsNoSentinel : Obligations.StuffedBodyHoldsNoSentinel := by
  unfold Obligations.StuffedBodyHoldsNoSentinel
  intro cfg a c p hw
  exact ⟨(body a c p).flatMap (stuff cfg), rfl, fun _ hb => flatMap_stuff_mem hw hb⟩

/-! ### The checksum, and four words bit by bit -/

/-- Settles O17: `Transaction.verdict` is the verdict of rule R110 on the byte that came. -/
theorem checksumDecidesVerdict : Obligations.ChecksumDecidesVerdict := by
  unfold Obligations.ChecksumDecidesVerdict
  intro cfg rx t k hw hi
  exact ⟨Rx.afterVerdict t k, rfl, Rx.run_frameWith_of_idle hw hi t k⟩

/-- Settles O1: closed words, each evaluated. -/
theorem writtenWordsDecode : Obligations.WrittenWordsDecode := by
  unfold Obligations.WrittenWordsDecode
  refine ⟨?_, ?_, ?_, ?_⟩
  · decide
  · decide
  · decide
  · decide

end Sys2Proof.Machine
end

section
/-! PROOFS of the family 'other', the decoder over whole byte sequences: resynchronisation (rule R118), the dead registers of
`Idle` (rules R16, R116). -/

namespace Sys2Proof.Machine

/-! ### Runs without a record -/

/-- No record was accepted among these results. -/
def NoRecord (rs : List RxResult) : Prop := ∀ r ∈ rs, ∀ t, r ≠ .frameOk t

theorem noRecord_nil : NoRecord [] := fun _ h => absurd h List.not_mem_nil

theorem noRecord_cons {r : RxResult} {rs : List RxResult} (h : ∀ t, r ≠ .frameOk t) (hs : NoRecord rs) :
    NoRecord (r :: rs) := List.forall_mem_cons.2 ⟨h, hs⟩

theorem noRecord_append {rs rs' : List RxResult} (h : NoRecord rs) (h' : NoRecord rs') : NoRecord (rs ++ rs') :=
  List.forall_mem_append.2 ⟨h, h'⟩

theorem noRecord_replicate (n : Nat) : NoRecord (List.replicate n .needMore) := by
  intro r hr t
  rw [List.eq_of_mem_replicate hr]
  simp

/-- Inversion of a run over two pieces. -/
theorem Rx.run_append_eq_some {cfg : Config} (xs : List Byte) {ys : List Byte} {rx q : Rx} {rs : List RxResult}
    (h : rx.run cfg (xs ++ ys) = some (q, rs)) :
    ∃ mid rs₁ rs₂, rx.run cfg xs = some (mid, rs₁) ∧ mid.run cfg ys = some (q, rs₂) ∧ rs = rs₁ ++ rs₂ := by
  induction xs generalizing rx rs with
  | nil => exact ⟨rx, [], rs, rfl, h, rfl⟩
  | cons b xs ih =>
    obtain ⟨rx', r, rs', hstep, hrun, rfl⟩ := Rx.run_cons_eq_some h
    obtain ⟨mid, rs₁, rs₂, first, second, rfl⟩ := ih hrun
    exact ⟨mid, r :: rs₁, rs₂, by rw [Rx.run_cons hstep, first]; rfl, second, rfl⟩

/-- A run whose last byte is given apart. -/
theorem Rx.run_concat_eq_some {cfg : Config} {xs : List Byte} {b : Byte} {rx q : Rx} {rs : List RxResult}
    (h : rx.run cfg (xs ++ [b]) = some (q, rs)) :
    ∃ mid rs' r, rx.run cfg xs = some (mid, rs') ∧ mid.step cfg b = some (q, r) ∧ rs = rs' ++ [r] := by
  obtain ⟨mid, rs₁, rs₂, first, last, rfl⟩ := Rx.run_append_eq_some xs h
  obtain ⟨q', r, rs', hstep, hrun, rfl⟩ := Rx.run_cons_eq_some last
  cases hrun
  exact ⟨mid, rs₁, r, first, hstep, rfl⟩

/-- In every state rule R32 allows the decoder takes any bytes, and ends in such a state. -/
theorem Rx.run_inv {rx : Rx} (hi : rx.Inv) (cfg : Config) (bytes : List Byte) :
    ∃ q rs, rx.run cfg bytes = some (q, rs) ∧ q.Inv := by
  induction bytes generalizing rx with
  | nil => exact ⟨rx, [], rfl, hi⟩
  | cons b bs ih =>
    obtain ⟨⟨rx', r⟩, hstep⟩ := Option.isSome_iff_exists.1 (Rx.step_isSome hi cfg b)
    obtain ⟨q, rs, hrun, hq⟩ := ih (Rx.inv_step hi hstep)
    exact ⟨q, r :: rs, by rw [Rx.run_cons hstep, hrun]; rfl, hq⟩

/-- Items 2 and 3 of rule R32 ask nothing of `Idle`. -/
theorem Rx.inv_of_idle {rx : Rx} (hi : rx.state = .idle) : rx.Inv := ⟨by simp [hi], by simp [hi], by simp [hi]⟩

/-! ### Where a `START` opens a frame -/

/-- The decoder does not stand before a checksum byte: rule R118's exception is ruled out. -/
def Rx.Ready (rx : Rx) : Prop := rx.state = .expectChecksum → rx.cnt = 7

theorem Rx.ready_of_idle {rx : Rx} (hi : rx.state = .idle) : rx.Ready := fun h => by simp [hi] at h

theorem Rx.frameStart_ready (rx : Rx) : rx.frameStart.Ready := fun h => by simp at h

/-- A `START` opens a frame, and is answered with no record (rules R101, R102, R106, R112, R118). -/
theorem Rx.step_start {cfg : Config} (hw : cfg.wf) {rx : Rx} (ready : rx.Ready) :
    ∃ r, rx.step cfg cfg.start = some (rx.frameStart, r) ∧ ∀ t, r ≠ .frameOk t := by
  cases hs : rx.state with
  | idle => exact ⟨.needMore, by rw [Rx.step_idle hs, if_pos rfl], by simp⟩
  | inFrame => exact ⟨.frameTooShort, by simp [Rx.step, hs, Rx.stepInFrame, Rx.raise, RxError.result], by simp⟩
  | escaped => exact ⟨.frameTooShort, by simp [Rx.step, hs, Rx.stepEscaped, Rx.raise, RxError.result], by simp⟩
  | expectChecksum =>
    refine ⟨.frameTooShort, ?_, by simp⟩
    rw [Rx.step_closing hs (ready hs), if_neg hw.stop_ne_start.symm, if_pos rfl]

/-- Wherever a `START` opens a frame, the whole frame ends in its verdict, and no record is reported before it. -/
theorem Rx.run_frameWith_of_ready {cfg : Config} (hw : cfg.wf) {rx : Rx} (ready : rx.Ready) (t : Transaction) (k : Byte) :
    ∃ rs, rx.run cfg (t.frameWith cfg k) = some (Rx.afterVerdict t k, rs ++ [t.verdict k]) ∧ NoRecord rs := by
  obtain ⟨r, opens, silent⟩ := Rx.step_start hw ready
  exact ⟨_, Rx.run_frameWith hw opens t k, noRecord_cons silent (noRecord_replicate _)⟩

/-- Wherever a `START` opens a frame, the whole frame of `t` is accepted, and nothing before it (rule R118). -/
theorem Rx.run_frame_of_ready {cfg : Config} (hw : cfg.wf) {rx : Rx} (ready : rx.Ready) (t : Transaction) :
    ∃ rx' rs, rx'.state = .idle ∧ rx.run cfg (t.frame cfg) = some (rx', rs ++ [.frameOk t]) ∧ NoRecord rs := by
  obtain ⟨rs, run, silent⟩ := Rx.run_frameWith_of_ready hw ready t (checksum t.addr t.cmd t.payload)
  rw [Transaction.verdict_checksum] at run
  exact ⟨_, rs, rfl, run, silent⟩

/-- Settles O16: the hypothesis is that the decoder is ready for a `START`. -/
theorem wholeFrameIsAccepted : Obligations.WholeFrameIsAccepted := by
  unfold Obligations.WholeFrameIsAccepted
  intro cfg rx t hw ready
  exact Rx.run_frame_of_ready hw ready t

/-- Settles O15: the moves of the decoder that report anything but `NeedMore`. -/
theorem verdictResynchronises : Obligations.VerdictResynchronises := by
  unfold Obligations.VerdictResynchronises
  intro cfg rx rx' b r hstep verdict
  cases Rx.move_of_step hstep with
  | opened | noise | escape | plain | image | latch => exact absurd rfl verdict
  | cut _ hb => exact .inr ⟨rfl, rfl, rfl, hb⟩
  | short | badPair | ok | corrupt => exact .inl rfl

/-! ### Bytes that open no frame -/

/-- In `Idle` bytes among which there is no `START` are noise (rule R101). -/
theorem Rx.run_noise {cfg : Config} {rx : Rx} (hi : rx.state = .idle) {bytes : List Byte} (hn : cfg.start ∉ bytes) :
    rx.run cfg bytes = some (rx, List.replicate bytes.length .needMore) := by
  induction bytes with
  | nil => rfl
  | cons b bs ih =>
    have skipped : rx.step cfg b = some (rx, .needMore) := by
      rw [Rx.step_idle hi, if_neg (List.ne_of_not_mem_cons hn).symm]
    rw [Rx.run_cons skipped, ih (List.not_mem_of_not_mem_cons hn)]
    rfl

/-- In `Idle` any byte and an `END` after it give no record, even where the byte is a `START` (rules R101, R103). -/
theorem Rx.run_idle_stop {cfg : Config} (hw : cfg.wf) {rx : Rx} (hi : rx.state = .idle) (k : Byte) :
    ∃ q rs, q.state = .idle ∧ rx.run cfg [k, cfg.stop] = some (q, rs) ∧ NoRecord rs := by
  by_cases hk : k = cfg.start
  · have opened : rx.step cfg k = some (rx.frameStart, .needMore) := by rw [Rx.step_idle hi, if_pos hk]
    have closed : rx.frameStart.step cfg cfg.stop = some ({ rx.frameStart with state := .idle }, .frameTooShort) := by
      rw [Rx.step_inFrame rfl (Nat.zero_le 5), if_neg hw.stop_ne_start, if_pos rfl]
    exact ⟨{ rx.frameStart with state := .idle }, [.needMore, .frameTooShort], rfl,
      by rw [Rx.run_cons opened, Rx.run_cons closed]; rfl, by simp [NoRecord]⟩
  · have noise : cfg.start ∉ [k, cfg.stop] := by simp [Ne.symm hk, hw.stop_ne_start.symm]
    exact ⟨rx, _, hi, Rx.run_noise hi noise, noRecord_replicate _⟩

/-- The rest of a frame whose `START` was missed gives no record and leaves the decoder in `Idle` (rule R101). -/
theorem Rx.run_noise_stop {cfg : Config} (hw : cfg.wf) {rx : Rx} (hi : rx.state = .idle) {bytes : List Byte}
    (hn : cfg.start ∉ bytes) (k : Byte) :
    ∃ q rs, q.state = .idle ∧ rx.run cfg (bytes ++ [k, cfg.stop]) = some (q, rs) ∧ NoRecord rs := by
  obtain ⟨q, rs, hq, run, silent⟩ := Rx.run_idle_stop hw hi k
  exact ⟨q, _, hq, Rx.run_append (Rx.run_noise hi hn) run, noRecord_append (noRecord_replicate _) silent⟩

theorem start_not_mem_flatMap_stuff {cfg : Config} (hw : cfg.wf) (vs : List Byte) :
    cfg.start ∉ vs.flatMap (stuff cfg) := fun h => (flatMap_stuff_mem hw h).1 rfl

/-- The stuffed body is not empty, and its first raw byte is no sentinel (rules R61, R64). -/
theorem flatMap_stuff_body_eq_cons {cfg : Config} (hw : cfg.wf) (a c : Byte) (p : Payload) :
    ∃ b bs, (body a c p).flatMap (stuff cfg) = b :: bs ∧ b ≠ cfg.start ∧ b ≠ cfg.stop ∧ cfg.start ∉ bs := by
  have noStart := start_not_mem_flatMap_stuff hw (body a c p)
  cases hbytes : (body a c p).flatMap (stuff cfg) with
  | nil =>
    have length := length_flatMap_stuff cfg (body a c p)
    rw [hbytes, body_length, List.length_nil] at length
    omega
  | cons b bs =>
    rw [hbytes] at noStart
    obtain ⟨hstart, hstop⟩ := flatMap_stuff_mem hw (hbytes ▸ List.mem_cons_self : b ∈ (body a c p).flatMap (stuff cfg))
    exact ⟨b, bs, rfl, hstart, hstop, List.not_mem_of_not_mem_cons noStart⟩

/-- Settles O22: the `START` is latched as a checksum, the byte after it cuts the old frame off, and the rest is noise. -/
theorem frameAtChecksumPositionIsLost : Obligations.FrameAtChecksumPositionIsLost := by
  unfold Obligations.FrameAtChecksumPositionIsLost
  intro cfg rx t hw hs hc
  obtain ⟨b, bs, hbytes, hstart, hstop, noStart⟩ := flatMap_stuff_body_eq_cons hw t.addr t.cmd t.payload
  have latched := Rx.step_checksum hs hc cfg.start (cfg := cfg)
  have cutOff : ({ rx with csum := cfg.start, cnt := 7 } : Rx).step cfg b =
      some ({ rx with csum := cfg.start, cnt := 7, state := .idle }, .frameTooShort) := by
    rw [Rx.step_closing (rx := { rx with csum := cfg.start, cnt := 7 }) hs rfl, if_neg hstop, if_neg hstart]
  obtain ⟨q, rs, hq, run, silent⟩ := Rx.run_noise_stop hw
    (rx := { rx with csum := cfg.start, cnt := 7, state := .idle }) rfl noStart (checksum t.addr t.cmd t.payload)
  refine ⟨q, .needMore :: .frameTooShort :: rs, hq, ?_, noRecord_cons (by simp) (noRecord_cons (by simp) silent)⟩
  rw [Transaction.frame, encode, encodeFields, hbytes, Rx.run_cons latched, List.cons_append, Rx.run_cons cutOff, run]
  rfl

/-! ### What `Idle` leaves over is dead -/

/-- The two decoders agree on everything a frame in progress can still use: all of their registers that this frame has
written (rules R16 to R19). -/
structure Rx.Agrees (rx rx' : Rx) : Prop where
  state : rx'.state = rx.state
  cnt : rx.state ≠ .idle → rx'.cnt = rx.cnt
  xor : rx.state ≠ .idle → rx'.xor = rx.xor
  buf : rx.state ≠ .idle → rx'.buf.toList.take rx.cnt = rx.buf.toList.take rx.cnt
  csum : rx.state ≠ .idle → rx.cnt = 7 → rx'.csum = rx.csum

theorem Rx.agrees_of_idle {rx rx' : Rx} (hi : rx.state = .idle) (hi' : rx'.state = .idle) : rx.Agrees rx' :=
  ⟨hi'.trans hi.symm, fun h => absurd hi h, fun h => absurd hi h, fun h => absurd hi h, fun h => absurd hi h⟩

theorem Rx.agrees_frameStart (rx rx' : Rx) : rx.frameStart.Agrees rx'.frameStart :=
  ⟨rfl, fun _ => rfl, fun _ => rfl, fun _ => rfl, fun _ h => by simp at h⟩

/-- A byte put at place `n` follows the `n` before it (rule R17). -/
theorem RxBuf.take_toList_put (buf : RxBuf) {n : Nat} (hn : n ≤ 5) (v : Byte) :
    (buf.put n v).toList.take (n + 1) = buf.toList.take n ++ [v] := by
  interval_cases n <;> rfl

/-- Six bytes make the whole buffer (rule R17). -/
theorem RxBuf.eq_of_toList_take {buf buf' : RxBuf} {n : Nat} (hn : 6 ≤ n) (h : buf'.toList.take n = buf.toList.take n) :
    buf' = buf := by
  rw [List.take_of_length_le hn, List.take_of_length_le hn] at h
  obtain ⟨b0, b1, b2, b3, b4, b5⟩ := buf
  obtain ⟨c0, c1, c2, c3, c4, c5⟩ := buf'
  simpa [RxBuf.toList] using h

/-- Agreeing decoders that take the same body byte agree afterwards. -/
theorem Rx.Agrees.taken {rx rx' : Rx} (h : rx.Agrees rx') (hf : rx.state ≠ .idle) (hc : rx.cnt ≤ 5) (v : Byte) :
    (rx.taken v).Agrees (rx'.taken v) := by
  have hcnt := h.cnt hf
  refine ⟨?_, fun _ => ?_, fun _ => ?_, fun _ => ?_, fun _ seven => ?_⟩
  · simp only [Rx.taken, hcnt]
  · simp only [Rx.taken, hcnt]
  · simp only [Rx.taken, h.xor hf]
  · simp only [Rx.taken, hcnt, RxBuf.take_toList_put _ hc, h.buf hf]
  · simp only [Rx.taken] at seven
    omega

/-- Agreeing decoders report the same of every byte and agree afterwards: the simulation behind rule R116. -/
theorem Rx.Agrees.step {rx rx' : Rx} (h : rx.Agrees rx') (hi : rx.Inv) (cfg : Config) (b : Byte) :
    ∃ q q' r, rx.step cfg b = some (q, r) ∧ rx'.step cfg b = some (q', r) ∧ q.Agrees q' := by
  obtain ⟨body, closing, _⟩ := hi
  have hstate := h.state
  cases hs : rx.state with
  | idle =>
    rw [hs] at hstate
    by_cases hb : b = cfg.start
    · exact ⟨_, _, _, by rw [Rx.step_idle hs, if_pos hb], by rw [Rx.step_idle hstate, if_pos hb], rx.agrees_frameStart rx'⟩
    · exact ⟨_, _, _, by rw [Rx.step_idle hs, if_neg hb], by rw [Rx.step_idle hstate, if_neg hb], h⟩
  | inFrame =>
    have hf : rx.state ≠ .idle := by simp [hs]
    have hc : rx.cnt ≤ 5 := body (.inl hs)
    rw [hs] at hstate
    rw [Rx.step_inFrame hs hc, Rx.step_inFrame hstate (h.cnt hf ▸ hc)]
    split
    · exact ⟨_, _, _, rfl, rfl, rx.agrees_frameStart rx'⟩
    · split
      · exact ⟨_, _, _, rfl, rfl, Rx.agrees_of_idle rfl rfl⟩
      · split
        · exact ⟨_, _, _, rfl, rfl, rfl, fun _ => h.cnt hf, fun _ => h.xor hf, fun _ => h.buf hf, fun _ => h.csum hf⟩
        · exact ⟨_, _, _, rfl, rfl, h.taken hf hc b⟩
  | escaped =>
    have hf : rx.state ≠ .idle := by simp [hs]
    have hc : rx.cnt ≤ 5 := body (.inr hs)
    rw [hs] at hstate
    rw [Rx.step_escaped hs hc, Rx.step_escaped hstate (h.cnt hf ▸ hc)]
    split
    · exact ⟨_, _, _, rfl, rfl, rx.agrees_frameStart rx'⟩
    · split
      · exact ⟨_, _, _, rfl, rfl, Rx.agrees_of_idle rfl rfl⟩
      · split
        · exact ⟨_, _, _, rfl, rfl, h.taken hf hc _⟩
        · exact ⟨_, _, _, rfl, rfl, Rx.agrees_of_idle rfl rfl⟩
  | expectChecksum =>
    have hf : rx.state ≠ .idle := by simp [hs]
    have hbuf := h.buf hf
    rw [hs] at hstate
    rcases closing hs with six | seven
    · rw [Rx.step_checksum hs six, Rx.step_checksum hstate ((h.cnt hf).trans six)]
      have whole : rx'.buf = rx.buf := RxBuf.eq_of_toList_take (Nat.le_of_eq six.symm) hbuf
      exact ⟨_, _, _, rfl, rfl, h.state, fun _ => rfl, fun _ => h.xor hf, fun _ => by rw [whole], fun _ _ => rfl⟩
    · have record : rx'.record = rx.record := by
        rw [Rx.record, Rx.record, RxBuf.eq_of_toList_take (Nat.le_trans (by decide) (Nat.le_of_eq seven.symm)) hbuf]
      rw [Rx.step_closing hs seven, Rx.step_closing hstate ((h.cnt hf).trans seven), h.csum hf seven, h.xor hf, record]
      split
      · exact ⟨_, _, _, rfl, rfl, Rx.agrees_of_idle rfl rfl⟩
      · split
        · exact ⟨_, _, _, rfl, rfl, rx.agrees_frameStart rx'⟩
        · exact ⟨_, _, _, rfl, rfl, Rx.agrees_of_idle rfl rfl⟩

/-- Agreeing decoders report the same of every byte sequence and agree after it. -/
theorem Rx.Agrees.run {cfg : Config} (bytes : List Byte) {rx rx' : Rx} (h : rx.Agrees rx') (hi : rx.Inv) :
    ∃ q q' rs, rx.run cfg bytes = some (q, rs) ∧ rx'.run cfg bytes = some (q', rs) ∧ q.Agrees q' := by
  induction bytes generalizing rx rx' with
  | nil => exact ⟨rx, rx', [], rfl, rfl, h⟩
  | cons b bs ih =>
    obtain ⟨q, q', r, hstep, hstep', hq⟩ := h.step hi cfg b
    obtain ⟨u, u', rs, hrun, hrun', hu⟩ := ih hq (Rx.inv_step hi hstep)
    exact ⟨u, u', r :: rs, by rw [Rx.run_cons hstep, hrun]; rfl, by rw [Rx.run_cons hstep', hrun']; rfl, hu⟩

/-- Settles O19: two decoders in `Idle` agree, whatever is left over in them. -/
theorem idleRegistersAreDead : Obligations.IdleRegistersAreDead := by
  unfold Obligations.IdleRegistersAreDead
  intro cfg rx rx' bytes hi hi'
  obtain ⟨q, q', rs, hrun, hrun', hq⟩ := (Rx.agrees_of_idle hi hi').run (cfg := cfg) bytes (Rx.inv_of_idle hi)
  rw [hrun, hrun']
  exact ⟨by simp only [Option.map_some, hq.state], rfl⟩

end Sys2Proof.Machine
end

section
/-! PROOFS of the family 'other', one raw byte of a frame lost or changed (rules R119, R120): the damaged frame gives no
record, and the decoder is ready for the `START` of the next one. -/

namespace Sys2Proof.Machine

/-! ### The rest of a frame -/

/-- What is still to come of a frame: the stuffed bytes `vs` of its body, checksum byte `k`, and `END` (rules R64 to R67). -/
def frameRest (cfg : Config) (vs : List Byte) (k : Byte) : List Byte := vs.flatMap (stuff cfg) ++ [k, cfg.stop]

/-- After its `START` the whole rest of a frame is to come. -/
theorem Transaction.frame_eq (cfg : Config) (t : Transaction) :
    t.frame cfg = cfg.start :: frameRest cfg (body t.addr t.cmd t.payload) (checksum t.addr t.cmd t.payload) := rfl

/-! ### No record in too few bytes -/

/-- The fewest bytes after which a decoder can report a record: `START`, six body bytes, the checksum and `END`, as far as they
are still missing (rules R61, R110). -/
def Rx.distance (rx : Rx) : Nat := if rx.state = .idle then 9 else 8 - rx.cnt

theorem Rx.distance_of_idle {rx : Rx} (h : rx.state = .idle) : rx.distance = 9 := if_pos h

theorem Rx.le_distance (rx : Rx) : 8 - rx.cnt ≤ rx.distance := by
  unfold Rx.distance
  split <;> omega

/-- A byte brings a record nearer by one at most, and is answered with one only at distance 1. -/
theorem Rx.distance_step {cfg : Config} {rx rx' : Rx} {b : Byte} {r : RxResult} (h : rx.step cfg b = some (rx', r)) :
    rx.distance ≤ rx'.distance + 1 ∧ (1 < rx.distance → ∀ t, r ≠ .frameOk t) := by
  have taken : ∀ v, rx.state ≠ .idle → rx.distance ≤ (rx.taken v).distance + 1 := by
    intro v hs
    have counted : (rx.taken v).cnt = rx.cnt + 1 := rfl
    have next := (rx.taken v).le_distance
    rw [Rx.distance, if_neg hs]
    omega
  have far : rx.distance ≤ 9 := by
    unfold Rx.distance
    split <;> omega
  have nearIdle : ∀ q : Rx, q.state = .idle → rx.distance ≤ q.distance + 1 := fun q hq => by
    rw [Rx.distance_of_idle hq]
    omega
  have nearStart : rx.distance ≤ rx.frameStart.distance + 1 := far
  cases Rx.move_of_step h with
  | opened | cut => exact ⟨nearStart, fun _ => by simp⟩
  | noise hs => exact ⟨nearIdle rx hs, fun _ => by simp⟩
  | short | badPair | corrupt => exact ⟨nearIdle _ rfl, fun _ => by simp⟩
  | escape hs => exact ⟨by simp [Rx.distance, hs], fun _ => by simp⟩
  | plain hs | image hs => exact ⟨taken _ (by simp [hs]), fun _ => by simp⟩
  | latch hs hc => exact ⟨by simp [Rx.distance, hs, hc], fun _ => by simp⟩
  | ok hs hc => exact ⟨nearIdle _ rfl, fun near => by simp [Rx.distance, hs, hc] at near⟩

/-! ### Bytes that give no record -/

/-- The decoder reports no record over these bytes. -/
def Rx.Barren (cfg : Config) (rx : Rx) (bytes : List Byte) : Prop :=
  ∀ q rs, rx.run cfg bytes = some (q, rs) → NoRecord rs

theorem Rx.barren_of_run {cfg : Config} {rx q : Rx} {bytes : List Byte} {rs : List RxResult}
    (h : rx.run cfg bytes = some (q, rs)) (silent : NoRecord rs) : rx.Barren cfg bytes := by
  intro q' rs' h'
  rw [h] at h'
  cases h'
  exact silent

theorem Rx.barren_cons {cfg : Config} {rx q : Rx} {b : Byte} {bs : List Byte} {r : RxResult}
    (h : rx.step cfg b = some (q, r)) (silent : ∀ t, r ≠ .frameOk t) (rest : q.Barren cfg bs) :
    rx.Barren cfg (b :: bs) := by
  intro u rs hrun
  obtain ⟨q', r', rs', hstep, hrest, rfl⟩ := Rx.run_cons_eq_some hrun
  rw [h] at hstep
  cases hstep
  exact noRecord_cons silent (rest u rs' hrest)

theorem Rx.barren_append {cfg : Config} {rx q : Rx} {xs ys : List Byte} {rs : List RxResult}
    (h : rx.run cfg xs = some (q, rs)) (silent : NoRecord rs) (rest : q.Barren cfg ys) : rx.Barren cfg (xs ++ ys) := by
  intro u rs' hrun
  obtain ⟨q', rs₁, rs₂, first, second, rfl⟩ := Rx.run_append_eq_some xs hrun
  rw [h] at first
  cases first
  exact noRecord_append silent (rest u rs₂ second)

/-- Fewer bytes than a record still needs give none. -/
theorem Rx.barren_of_length_lt {cfg : Config} {bytes : List Byte} {rx : Rx} (h : bytes.length < rx.distance) :
    rx.Barren cfg bytes := by
  induction bytes generalizing rx with
  | nil => exact Rx.barren_of_run (Rx.run_nil cfg rx) noRecord_nil
  | cons b bs ih =>
    intro q rs hrun
    obtain ⟨rx', r, rs', hstep, hrest, rfl⟩ := Rx.run_cons_eq_some hrun
    obtain ⟨nearer, silent⟩ := Rx.distance_step hstep
    rw [List.length_cons] at h
    exact noRecord_cons (silent (by omega)) (ih (by omega) q rs' hrest)

/-! ### The rest of a frame in the states that damage leads to -/

/-- In the frame a byte that is not special is taken as it stands (rule R105). -/
theorem Rx.step_plain {cfg : Config} {rx : Rx} (hs : rx.state = .inFrame) (hc : rx.cnt ≤ 5) {b : Byte}
    (hb : special cfg b = false) : rx.step cfg b = some (rx.taken b, .needMore) := by
  obtain ⟨hstart, hstop, hesc⟩ := not_special hb
  rw [Rx.step_inFrame hs hc, if_neg hstart, if_neg hstop, if_neg hesc]

/-- In the frame an `ESC` announces an image (rule R104). -/
theorem Rx.step_esc {cfg : Config} (hw : cfg.wf) {rx : Rx} (hs : rx.state = .inFrame) (hc : rx.cnt ≤ 5) :
    rx.step cfg cfg.esc = some ({ rx with state := .escaped }, .needMore) := by
  rw [Rx.step_inFrame hs hc, if_neg hw.esc_ne_start, if_neg hw.esc_ne_stop, if_pos rfl]

theorem Rx.cnt_foldl_taken (vs : List Byte) (rx : Rx) : (vs.foldl Rx.taken rx).cnt = rx.cnt + vs.length := by
  induction vs generalizing rx with
  | nil => rfl
  | cons v vs ih =>
    have counted : (rx.taken v).cnt = rx.cnt + 1 := rfl
    rw [List.foldl_cons, ih, counted, List.length_cons]
    omega

theorem Rx.xor_foldl_taken (vs : List Byte) (rx : Rx) : (vs.foldl Rx.taken rx).xor = vs.foldl (· ^^^ ·) rx.xor := by
  induction vs generalizing rx with
  | nil => rfl
  | cons v vs ih => exact ih (rx.taken v)

/-- After some body bytes the count tells the state (rules R16, R113). -/
theorem Rx.state_foldl_taken_taken (vs : List Byte) (rx : Rx) (v : Byte) :
    (vs.foldl Rx.taken (rx.taken v)).state = if rx.cnt + 1 + vs.length = 6 then .expectChecksum else .inFrame := by
  induction vs generalizing rx v with
  | nil => rfl
  | cons w vs ih =>
    have counted : (rx.taken v).cnt = rx.cnt + 1 := rfl
    have length : rx.cnt + 1 + 1 + vs.length = rx.cnt + 1 + (w :: vs).length := by
      rw [List.length_cons]
      omega
    rw [List.foldl_cons, ih, counted, length]

theorem Rx.state_foldl_taken {vs : List Byte} {rx : Rx} (hs : rx.state = .inFrame) (hc : rx.cnt + vs.length ≤ 5) :
    (vs.foldl Rx.taken rx).state = .inFrame := by
  cases vs with
  | nil => exact hs
  | cons v vs =>
    rw [List.length_cons] at hc
    have notFull : rx.cnt + 1 + vs.length ≠ 6 := by omega
    rw [List.foldl_cons, Rx.state_foldl_taken_taken, if_neg notFull]

/-- Further body bytes after one that was taken, up to the sixth (rules R104, R105, R108). -/
theorem Rx.run_body_of_taken {cfg : Config} (hw : cfg.wf) {vs : List Byte} {rx : Rx} {v : Byte}
    (hc : rx.cnt + 1 + vs.length ≤ 6) :
    (rx.taken v).run cfg (vs.flatMap (stuff cfg)) =
      some (vs.foldl Rx.taken (rx.taken v), List.replicate (vs.flatMap (stuff cfg)).length .needMore) := by
  cases vs with
  | nil => rfl
  | cons w vs =>
    rw [List.length_cons] at hc
    have notSixth : rx.cnt + 1 ≠ 6 := by omega
    exact Rx.run_body hw (w :: vs) (if_neg notSixth) hc

/-- In `Idle` the rest of a frame is noise. -/
theorem Rx.barren_of_idle {cfg : Config} (hw : cfg.wf) {rx : Rx} (hi : rx.state = .idle) {bytes : List Byte}
    (hn : cfg.start ∉ bytes) (k : Byte) : rx.Barren cfg (bytes ++ [k, cfg.stop]) := by
  obtain ⟨q, rs, _, run, silent⟩ := Rx.run_noise_stop hw hi hn k
  exact Rx.barren_of_run run silent

/-- Of a frame that was given up the rest is noise. -/
theorem Rx.barren_given_up {cfg : Config} (hw : cfg.wf) (rx : Rx) (vs : List Byte) (k : Byte) :
    Rx.Barren cfg { rx with state := .idle } (frameRest cfg vs k) :=
  Rx.barren_of_idle hw rfl (start_not_mem_flatMap_stuff hw vs) k

/-- With a body byte missing the frame ends before its record does. -/
theorem Rx.barren_of_missing {cfg : Config} (hw : cfg.wf) {rx : Rx} (hs : rx.state = .inFrame) {vs : List Byte}
    (hc : rx.cnt + vs.length ≤ 5) (k : Byte) : rx.Barren cfg (frameRest cfg vs k) := by
  refine Rx.barren_append (Rx.run_body hw vs hs (by omega)) (noRecord_replicate _) (Rx.barren_of_length_lt ?_)
  have distant := (vs.foldl Rx.taken rx).le_distance
  rw [Rx.cnt_foldl_taken] at distant
  simp only [List.length_cons, List.length_nil]
  omega

/-- An `ESC` whose image is missing spoils the next byte, or makes one of two. -/
theorem Rx.barren_of_orphan {cfg : Config} (hw : cfg.wf) {rx : Rx} (hs : rx.state = .escaped) {vs : List Byte}
    (hc : rx.cnt + vs.length ≤ 5) (k : Byte) : rx.Barren cfg (frameRest cfg vs k) := by
  cases vs with
  | nil =>
    have distant := rx.le_distance
    rw [List.length_nil] at hc
    refine Rx.barren_of_length_lt ?_
    simp only [frameRest, List.flatMap_nil, List.nil_append, List.length_cons, List.length_nil]
    omega
  | cons v vs =>
    rw [List.length_cons] at hc
    rw [frameRest, List.flatMap_cons]
    cases hv : special cfg v with
    | true =>
      have image := not_special (image_not_special hw hv)
      have badPair : rx.step cfg cfg.esc = some ({ rx with state := .idle }, .frameCorrupt) := by
        rw [Rx.step_escaped hs (by omega), if_neg hw.esc_ne_start, if_neg hw.esc_ne_stop,
          image_not_special hw (special_iff.2 (.inr (.inr rfl))), if_neg Bool.false_ne_true]
      have noise : cfg.start ∉ (v ^^^ cfg.mask) :: vs.flatMap (stuff cfg) :=
        List.not_mem_cons_of_ne_of_not_mem image.1.symm (start_not_mem_flatMap_stuff hw vs)
      rw [stuff_of_special hv]
      exact Rx.barren_cons badPair (by simp) (Rx.barren_of_idle hw (rx := { rx with state := .idle }) rfl noise k)
    | false =>
      obtain ⟨hstart, hstop, _⟩ := not_special hv
      have hstep := Rx.step_escaped hs (by omega : rx.cnt ≤ 5) v (cfg := cfg)
      rw [if_neg hstart, if_neg hstop] at hstep
      rw [stuff_of_plain hv]
      cases himage : special cfg (v ^^^ cfg.mask) with
      | true =>
        rw [if_pos himage] at hstep
        have notSixth : rx.cnt + 1 ≠ 6 := by omega
        have counted : (rx.taken (v ^^^ cfg.mask)).cnt = rx.cnt + 1 := rfl
        exact Rx.barren_cons hstep (by simp) (Rx.barren_of_missing hw (if_neg notSixth) (by omega) k)
      | false =>
        rw [himage, if_neg Bool.false_ne_true] at hstep
        exact Rx.barren_cons hstep (by simp) (Rx.barren_given_up hw rx vs k)

/-- A checksum byte that is not the XOR of the bytes taken (rule R110). -/
theorem Rx.barren_of_bad_checksum {cfg : Config} {rx : Rx} (hs : rx.state = .expectChecksum) (hc : rx.cnt = 6) {k : Byte}
    (hk : k ≠ rx.xor) : rx.Barren cfg [k, cfg.stop] := by
  have corrupt : ({ rx with csum := k, cnt := 7 } : Rx).step cfg cfg.stop =
      some ({ rx with csum := k, cnt := 7, state := .idle }, .frameCorrupt) := by
    rw [Rx.step_closing (rx := { rx with csum := k, cnt := 7 }) hs rfl, if_pos rfl, if_neg hk]
  refine Rx.barren_of_run (q := { rx with csum := k, cnt := 7, state := .idle }) (rs := [.needMore, .frameCorrupt]) ?_
    (by simp [NoRecord])
  rw [Rx.run_cons (Rx.step_checksum hs hc k), Rx.run_cons corrupt]
  rfl

/-- A sum over the same bytes tells apart what it began with. -/
theorem foldl_xor_injective (vs : List Byte) {x y : Byte} (h : vs.foldl (· ^^^ ·) x = vs.foldl (· ^^^ ·) y) : x = y := by
  induction vs generalizing x y with
  | nil => exact h
  | cons v vs ih => exact (BitVec.xor_left_inj v).1 (ih h)

/-- With byte `w` in the place of body byte `v` the checksum is wrong (rules R65, R110). -/
theorem Rx.barren_of_altered {cfg : Config} (hw : cfg.wf) {rx : Rx} {v w k : Byte} {vs : List Byte}
    (hc : rx.cnt + 1 + vs.length = 6) (sum : k = vs.foldl (· ^^^ ·) (rx.xor ^^^ v)) (altered : w ≠ v) :
    (rx.taken w).Barren cfg (frameRest cfg vs k) := by
  refine Rx.barren_append (Rx.run_body_of_taken hw (Nat.le_of_eq hc)) (noRecord_replicate _)
    (Rx.barren_of_bad_checksum ?_ ?_ ?_)
  · rw [Rx.state_foldl_taken_taken, if_pos hc]
  · have counted : (rx.taken w).cnt = rx.cnt + 1 := rfl
    rw [Rx.cnt_foldl_taken, counted, hc]
  · rw [Rx.xor_foldl_taken, sum]
    exact fun same => altered ((BitVec.xor_right_inj rx.xor).1 (foldl_xor_injective vs same)).symm

/-- The image of a special byte is another byte (rule R6 item 2). -/
theorem image_ne {cfg : Config} (hw : cfg.wf) {v : Byte} (hv : special cfg v = true) : v ^^^ cfg.mask ≠ v := by
  intro same
  have image := image_not_special hw hv
  rw [same, hv] at image
  cases image

/-! ### The byte that is damaged -/

/-- Where a byte of a frame stands: `FrameCut cfg t xs b ys` when the frame of `t` is `xs`, then `b`, then `ys`. -/
inductive FrameCut (cfg : Config) (t : Transaction) : List Byte → Byte → List Byte → Prop where
  | opening : FrameCut cfg t [] cfg.start
      (frameRest cfg (body t.addr t.cmd t.payload) (checksum t.addr t.cmd t.payload))
  | plain (pre post : List Byte) (v : Byte) (hbody : body t.addr t.cmd t.payload = pre ++ v :: post)
      (hv : special cfg v = false) :
      FrameCut cfg t (cfg.start :: pre.flatMap (stuff cfg)) v (frameRest cfg post (checksum t.addr t.cmd t.payload))
  | escape (pre post : List Byte) (v : Byte) (hbody : body t.addr t.cmd t.payload = pre ++ v :: post)
      (hv : special cfg v = true) :
      FrameCut cfg t (cfg.start :: pre.flatMap (stuff cfg)) cfg.esc
        ((v ^^^ cfg.mask) :: frameRest cfg post (checksum t.addr t.cmd t.payload))
  | image (pre post : List Byte) (v : Byte) (hbody : body t.addr t.cmd t.payload = pre ++ v :: post)
      (hv : special cfg v = true) :
      FrameCut cfg t (cfg.start :: pre.flatMap (stuff cfg) ++ [cfg.esc]) (v ^^^ cfg.mask)
        (frameRest cfg post (checksum t.addr t.cmd t.payload))
  | csum : FrameCut cfg t (cfg.start :: (body t.addr t.cmd t.payload).flatMap (stuff cfg))
      (checksum t.addr t.cmd t.payload) [cfg.stop]
  | closing : FrameCut cfg t
      (cfg.start :: (body t.addr t.cmd t.payload).flatMap (stuff cfg) ++ [checksum t.addr t.cmd t.payload]) cfg.stop []

/-- A byte of a stuffed list belongs to the stuffing of one of its bytes. -/
theorem flatMap_stuff_eq_append {cfg : Config} (vs : List Byte) {xs ys : List Byte} {b : Byte}
    (h : vs.flatMap (stuff cfg) = xs ++ b :: ys) :
    ∃ pre v post l r, vs = pre ++ v :: post ∧ stuff cfg v = l ++ b :: r ∧ xs = pre.flatMap (stuff cfg) ++ l ∧
      ys = r ++ post.flatMap (stuff cfg) := by
  induction vs generalizing xs with
  | nil => simp at h
  | cons v vs ih =>
    have later : ∀ xs', vs.flatMap (stuff cfg) = xs' ++ b :: ys → xs = stuff cfg v ++ xs' →
        ∃ pre w post l r, v :: vs = pre ++ w :: post ∧ stuff cfg w = l ++ b :: r ∧ xs = pre.flatMap (stuff cfg) ++ l ∧
          ys = r ++ post.flatMap (stuff cfg) := by
      rintro xs' hrest rfl
      obtain ⟨pre, w, post, l, r, rfl, hw, rfl, rfl⟩ := ih hrest
      exact ⟨v :: pre, w, post, l, r, rfl, hw, by rw [List.flatMap_cons, List.append_assoc], rfl⟩
    rw [List.flatMap_cons] at h
    rcases List.append_eq_append_iff.1 h with ⟨xs', hxs, hrest⟩ | ⟨c, hv, hrest⟩
    · exact later xs' hrest hxs
    · cases c with
      | nil => exact later [] hrest.symm (by rw [hv, List.append_nil, List.append_nil])
      | cons b' r =>
        obtain ⟨rfl, rfl⟩ := List.cons.inj hrest
        exact ⟨[], v, vs, xs, r, rfl, hv, rfl, rfl⟩

/-- The places in a list of one. -/
theorem singleton_eq_append {x b : Byte} {xs ys : List Byte} (h : [x] = xs ++ b :: ys) : xs = [] ∧ b = x ∧ ys = [] := by
  cases xs with
  | nil => simpa [eq_comm] using h
  | cons x' xs => simp at h

/-- The places in a list of two. -/
theorem pair_eq_append {x y b : Byte} {xs ys : List Byte} (h : [x, y] = xs ++ b :: ys) :
    (xs = [] ∧ b = x ∧ ys = [y]) ∨ (xs = [x] ∧ b = y ∧ ys = []) := by
  cases xs with
  | nil => exact .inl (by simpa [eq_comm] using h)
  | cons x' xs =>
    obtain ⟨hx, hrest⟩ := List.cons.inj h
    obtain ⟨rfl, hb, hys⟩ := singleton_eq_append hrest
    exact .inr ⟨by rw [hx], hb, hys⟩

/-- A byte of a body byte's stuffing stands in one of these places (rule R64). -/
theorem frameCut_of_stuff {cfg : Config} {t : Transaction} {pre post l r : List Byte} {v b : Byte}
    (hbody : body t.addr t.cmd t.payload = pre ++ v :: post) (hstuff : stuff cfg v = l ++ b :: r) :
    FrameCut cfg t (cfg.start :: pre.flatMap (stuff cfg) ++ l) b
      (r ++ frameRest cfg post (checksum t.addr t.cmd t.payload)) := by
  cases hv : special cfg v with
  | false =>
    rw [stuff_of_plain hv] at hstuff
    obtain ⟨rfl, rfl, rfl⟩ := singleton_eq_append hstuff
    rw [List.append_nil]
    exact .plain pre post b hbody hv
  | true =>
    rw [stuff_of_special hv] at hstuff
    rcases pair_eq_append hstuff with ⟨rfl, rfl, rfl⟩ | ⟨rfl, rfl, rfl⟩
    · rw [List.append_nil]
      exact .escape pre post v hbody hv
    · exact .image pre post v hbody hv

/-- Every byte of a frame stands in one of these places (rules R61 to R68). -/
theorem frameCut_of_eq {cfg : Config} {t : Transaction} {xs ys : List Byte} {b : Byte}
    (h : t.frame cfg = xs ++ b :: ys) : FrameCut cfg t xs b ys := by
  rw [Transaction.frame_eq] at h
  cases xs with
  | nil =>
    obtain ⟨rfl, rfl⟩ := List.cons.inj h
    exact .opening
  | cons x xs =>
    obtain ⟨rfl, hrest⟩ := List.cons.inj h
    rcases List.append_eq_append_iff.1 hrest with ⟨c, rfl, htail⟩ | ⟨c, hbody, htail⟩
    · rcases pair_eq_append htail with ⟨rfl, rfl, rfl⟩ | ⟨rfl, rfl, rfl⟩
      · rw [List.append_nil]
        exact .csum
      · exact .closing
    · cases c with
      | nil =>
        obtain ⟨rfl, rfl⟩ := List.cons.inj htail
        rw [List.append_nil] at hbody
        rw [← hbody]
        exact .csum
      | cons b' c =>
        obtain ⟨rfl, rfl⟩ := List.cons.inj htail
        obtain ⟨pre, v, post, l, r, hsplit, hstuff, rfl, rfl⟩ := flatMap_stuff_eq_append _ hbody
        have cut := frameCut_of_stuff hsplit hstuff
        rw [frameRest, ← List.append_assoc] at cut
        exact cut

end Sys2Proof.Machine
end

section
/-! PROOFS of the family 'other', rules R119 and R120 themselves: what a decoder in `Idle` makes of a frame with one byte lost
or changed, place by place. -/

namespace Sys2Proof.Machine

/-! ### The decoder in the middle of a frame -/

/-- The stuffed body after a `START` in `Idle` (rules R101, R104, R105, R108). -/
theorem Rx.run_start_body {cfg : Config} (hw : cfg.wf) {rx : Rx} (hi : rx.state = .idle) (t : Transaction) :
    ∃ rs, rx.run cfg (cfg.start :: (body t.addr t.cmd t.payload).flatMap (stuff cfg)) =
      some (Rx.awaitingChecksum t rx.csum, rs) ∧ NoRecord rs := by
  obtain ⟨r, opens, silent⟩ := Rx.step_start hw (Rx.ready_of_idle hi)
  exact ⟨_, by rw [Rx.run_cons opens, Rx.run_body_of_frameStart hw]; rfl, noRecord_cons silent (noRecord_replicate _)⟩

/-- The decoder in the middle of a frame, before the bytes of body byte `v`: the bytes `post` follow it, and `k` is the checksum
that the frame will have if they all come undamaged (rules R16 to R18, R65). -/
structure Rx.Awaits (q : Rx) (v : Byte) (post : List Byte) (k : Byte) : Prop where
  state : q.state = .inFrame
  count : q.cnt + 1 + post.length = 6
  zero : q.cnt = 0 → q.xor = 0
  sum : k = post.foldl (· ^^^ ·) (q.xor ^^^ v)

theorem Rx.Awaits.cnt_le {q : Rx} {v k : Byte} {post : List Byte} (h : q.Awaits v post k) : q.cnt ≤ 5 := by
  have := h.count
  omega

/-- The part of a frame before body byte `v` (rules R101, R104, R105, R108). -/
theorem Rx.run_start_part {cfg : Config} (hw : cfg.wf) {rx : Rx} (hi : rx.state = .idle) {t : Transaction}
    {pre post : List Byte} {v : Byte} (hbody : body t.addr t.cmd t.payload = pre ++ v :: post) :
    ∃ q rs, rx.run cfg (cfg.start :: pre.flatMap (stuff cfg)) = some (q, rs) ∧ NoRecord rs ∧
      q.Awaits v post (checksum t.addr t.cmd t.payload) := by
  have length := congrArg List.length hbody
  rw [body_length, List.length_append, List.length_cons] at length
  have room : rx.frameStart.cnt + pre.length ≤ 5 := by
    rw [Rx.frameStart_cnt]
    omega
  have counted : (pre.foldl Rx.taken rx.frameStart).cnt = pre.length := by
    rw [Rx.cnt_foldl_taken, Rx.frameStart_cnt, Nat.zero_add]
  have summed : (pre.foldl Rx.taken rx.frameStart).xor = pre.foldl (· ^^^ ·) 0 := Rx.xor_foldl_taken pre rx.frameStart
  obtain ⟨r, opens, silent⟩ := Rx.step_start hw (Rx.ready_of_idle hi)
  have run := Rx.run_cons opens (pre.flatMap (stuff cfg))
  rw [Rx.run_body hw pre rfl (Nat.le_succ_of_le room)] at run
  refine ⟨pre.foldl Rx.taken rx.frameStart, _, run, noRecord_cons silent (noRecord_replicate _),
    Rx.state_foldl_taken rfl room, by omega, fun none => ?_, ?_⟩
  · have empty : pre = [] := List.length_eq_zero_iff.1 (counted.symm.trans none)
    rw [summed, empty]
    rfl
  · rw [checksum, hbody, List.foldl_append, List.foldl_cons, summed]

/-! ### Body byte `v` damaged -/

section
variable {cfg : Config} {q : Rx} {v k : Byte} {post : List Byte}

/-- The byte does not come. -/
theorem Rx.Awaits.barren_missing (hw : cfg.wf) (h : q.Awaits v post k) : q.Barren cfg (frameRest cfg post k) := by
  have count := h.count
  exact Rx.barren_of_missing hw h.state (by omega) k

/-- The frame begins anew: all bytes up to this one are missing. -/
theorem Rx.Awaits.barren_cut (hw : cfg.wf) (h : q.Awaits v post k) : q.frameStart.Barren cfg (frameRest cfg post k) := by
  have count := h.count
  exact Rx.barren_of_missing hw rfl (by rw [Rx.frameStart_cnt]; omega) k

/-- Another byte is taken in its place. -/
theorem Rx.Awaits.barren_other (hw : cfg.wf) (h : q.Awaits v post k) {w : Byte} (other : w ≠ v) :
    (q.taken w).Barren cfg (frameRest cfg post k) := Rx.barren_of_altered hw h.count h.sum other

/-- An `ESC` comes in its place, or its image does not come. -/
theorem Rx.Awaits.barren_orphan (hw : cfg.wf) (h : q.Awaits v post k) :
    Rx.Barren cfg { q with state := .escaped } (frameRest cfg post k) := by
  have count := h.count
  exact Rx.barren_of_orphan hw rfl (by simp only; omega) k

/-- A byte that travels as it stands is changed. -/
theorem Rx.Awaits.barren_changed_plain (hw : cfg.wf) (h : q.Awaits v post k) {new : Byte} (changed : new ≠ v) :
    q.Barren cfg (new :: frameRest cfg post k) := by
  have hstep := Rx.step_inFrame h.state h.cnt_le new (cfg := cfg)
  by_cases hstart : new = cfg.start
  · rw [if_pos hstart] at hstep
    exact Rx.barren_cons hstep (by simp) (h.barren_cut hw)
  by_cases hstop : new = cfg.stop
  · rw [if_neg hstart, if_pos hstop] at hstep
    exact Rx.barren_cons hstep (by simp) (Rx.barren_given_up hw q post k)
  by_cases hesc : new = cfg.esc
  · rw [if_neg hstart, if_neg hstop, if_pos hesc] at hstep
    exact Rx.barren_cons hstep (by simp) (h.barren_orphan hw)
  · rw [if_neg hstart, if_neg hstop, if_neg hesc] at hstep
    exact Rx.barren_cons hstep (by simp) (h.barren_other hw changed)

/-- The `ESC` of a pair is lost: the image is taken as it stands. -/
theorem Rx.Awaits.barren_lost_esc (hw : cfg.wf) (h : q.Awaits v post k) (hv : special cfg v = true) :
    q.Barren cfg ((v ^^^ cfg.mask) :: frameRest cfg post k) :=
  Rx.barren_cons (Rx.step_plain h.state h.cnt_le (image_not_special hw hv)) (by simp) (h.barren_other hw (image_ne hw hv))

/-- The `ESC` of a pair becomes a sentinel: the image is noise, or the first body byte of a frame that is too short or sums up
wrong. -/
theorem Rx.Awaits.barren_changed_esc (hw : cfg.wf) (h : q.Awaits v post k) (hv : special cfg v = true) {new : Byte}
    (changed : new ≠ cfg.esc) (hnew : special cfg new = true) :
    q.Barren cfg (new :: (v ^^^ cfg.mask) :: frameRest cfg post k) := by
  have hstep := Rx.step_inFrame h.state h.cnt_le new (cfg := cfg)
  have image := image_not_special hw hv
  rcases special_iff.1 hnew with rfl | rfl | rfl
  · rw [if_pos rfl] at hstep
    refine Rx.barren_cons hstep (by simp) (Rx.barren_cons (Rx.step_plain rfl (Nat.zero_le 5) image) (by simp) ?_)
    have count := h.count
    by_cases first : q.cnt = 0
    · have sum := h.sum
      rw [h.zero first] at sum
      exact Rx.barren_of_altered hw (by rw [Rx.frameStart_cnt]; omega) sum (image_ne hw hv)
    · exact Rx.barren_of_missing hw rfl (by simp only [Rx.taken, Rx.frameStart_cnt]; omega) k
  · rw [if_neg hw.stop_ne_start, if_pos rfl] at hstep
    exact Rx.barren_cons hstep (by simp) (Rx.barren_of_idle hw (rx := { q with state := .idle }) rfl
      (List.not_mem_cons_of_ne_of_not_mem (not_special image).1.symm (start_not_mem_flatMap_stuff hw post)) k)
  · exact absurd rfl changed

/-- The image of a pair is changed. -/
theorem Rx.Awaits.barren_changed_image (hw : cfg.wf) (h : q.Awaits v post k) {new : Byte}
    (changed : new ≠ v ^^^ cfg.mask) : q.Barren cfg (cfg.esc :: new :: frameRest cfg post k) := by
  refine Rx.barren_cons (Rx.step_esc hw h.state h.cnt_le) (by simp) ?_
  have anew := h.barren_cut hw
  have hstep := Rx.step_escaped (rx := { q with state := .escaped }) rfl h.cnt_le new (cfg := cfg)
  by_cases hstart : new = cfg.start
  · rw [if_pos hstart] at hstep
    exact Rx.barren_cons hstep (by simp) anew
  by_cases hstop : new = cfg.stop
  · rw [if_neg hstart, if_pos hstop] at hstep
    exact Rx.barren_cons hstep (by simp) (Rx.barren_given_up hw q post k)
  by_cases himage : special cfg (new ^^^ cfg.mask) = true
  · have other : new ^^^ cfg.mask ≠ v := fun same => changed (by rw [← same, xor_mask_twice])
    rw [if_neg hstart, if_neg hstop, if_pos himage] at hstep
    exact Rx.barren_cons hstep (by simp) (h.barren_other hw other)
  · rw [if_neg hstart, if_neg hstop, if_neg himage] at hstep
    exact Rx.barren_cons hstep (by simp) (Rx.barren_given_up hw q post k)

end

/-! ### One byte lost -/

/-- With one byte lost the frame gives no record (rule R119). -/
theorem FrameCut.barren_lost {cfg : Config} (hw : cfg.wf) {rx : Rx} (hi : rx.state = .idle) {t : Transaction}
    {xs ys : List Byte} {b : Byte} (cut : FrameCut cfg t xs b ys) : rx.Barren cfg (xs ++ ys) := by
  cases cut with
  | opening => exact Rx.barren_of_idle hw hi (start_not_mem_flatMap_stuff hw _) _
  | plain pre post v hbody hv =>
    obtain ⟨q, rs, run, silent, awaits⟩ := Rx.run_start_part hw hi hbody
    exact Rx.barren_append run silent (awaits.barren_missing hw)
  | escape pre post v hbody hv =>
    obtain ⟨q, rs, run, silent, awaits⟩ := Rx.run_start_part hw hi hbody
    exact Rx.barren_append run silent (awaits.barren_lost_esc hw hv)
  | image pre post v hbody hv =>
    obtain ⟨q, rs, run, silent, awaits⟩ := Rx.run_start_part hw hi hbody
    rw [List.append_assoc]
    exact Rx.barren_append run silent
      (Rx.barren_cons (Rx.step_esc hw awaits.state awaits.cnt_le) (by simp) (awaits.barren_orphan hw))
  | csum =>
    obtain ⟨rs, run, silent⟩ := Rx.run_start_body hw hi t
    exact Rx.barren_append run silent (Rx.barren_of_length_lt (by simp [Rx.distance, Rx.awaitingChecksum]))
  | closing =>
    obtain ⟨rs, run, silent⟩ := Rx.run_start_body hw hi t
    rw [List.append_nil]
    exact Rx.barren_append run silent (Rx.barren_of_length_lt (by simp [Rx.distance, Rx.awaitingChecksum]))

/-! ### One byte changed -/

/-- In the place of `END` another byte cuts the frame off, and the decoder is ready (rules R111, R112). -/
theorem Rx.step_awaitingStop_other {cfg : Config} (t : Transaction) (k : Byte) {new : Byte} (changed : new ≠ cfg.stop) :
    ∃ q, (Rx.awaitingStop t k).step cfg new = some (q, .frameTooShort) ∧ q.Ready := by
  rw [Rx.step_closing rfl rfl, if_neg changed]
  by_cases hstart : new = cfg.start
  · exact ⟨_, by rw [if_pos hstart], Rx.frameStart_ready _⟩
  · exact ⟨_, by rw [if_neg hstart], Rx.ready_of_idle rfl⟩

/-- The pair of an `ESC` is followed by the tail of its frame. -/
theorem one_lt_length_cons_frameRest (cfg : Config) (m : Byte) (vs : List Byte) (k : Byte) :
    1 < (m :: frameRest cfg vs k).length := by
  rw [List.length_cons, frameRest, List.length_append, List.length_cons, List.length_singleton]
  omega

/-- With one byte changed the frame gives no record, unless the byte was the `ESC` of a pair and became a byte that is not
special (rule R120). -/
theorem FrameCut.barren_changed {cfg : Config} (hw : cfg.wf) {rx : Rx} (hi : rx.state = .idle) {t : Transaction}
    {xs ys : List Byte} {b new : Byte} (cut : FrameCut cfg t xs b ys) (changed : new ≠ b)
    (noCollision : ¬ (b = cfg.esc ∧ 1 < ys.length ∧ special cfg new = false)) : rx.Barren cfg (xs ++ new :: ys) := by
  cases cut with
  | opening =>
    exact Rx.barren_of_idle hw hi (List.not_mem_cons_of_ne_of_not_mem changed.symm (start_not_mem_flatMap_stuff hw _)) _
  | plain pre post v hbody hv =>
    obtain ⟨q, rs, run, silent, awaits⟩ := Rx.run_start_part hw hi hbody
    exact Rx.barren_append run silent (awaits.barren_changed_plain hw changed)
  | escape pre post v hbody hv =>
    obtain ⟨q, rs, run, silent, awaits⟩ := Rx.run_start_part hw hi hbody
    have hnew : special cfg new = true :=
      (Bool.not_eq_false _).mp fun plain => noCollision ⟨rfl, one_lt_length_cons_frameRest cfg _ post _, plain⟩
    exact Rx.barren_append run silent (awaits.barren_changed_esc hw hv changed hnew)
  | image pre post v hbody hv =>
    obtain ⟨q, rs, run, silent, awaits⟩ := Rx.run_start_part hw hi hbody
    rw [List.append_assoc]
    exact Rx.barren_append run silent (awaits.barren_changed_image hw changed)
  | csum =>
    obtain ⟨rs, run, silent⟩ := Rx.run_start_body hw hi t
    exact Rx.barren_append run silent (Rx.barren_of_bad_checksum rfl rfl changed)
  | closing =>
    obtain ⟨rs, run, silent⟩ := Rx.run_start_body hw hi t
    obtain ⟨q, cutOff, _⟩ := Rx.step_awaitingStop_other t (checksum t.addr t.cmd t.payload) changed
    rw [List.append_assoc]
    exact Rx.barren_append run silent (Rx.barren_cons (Rx.step_awaitingChecksum cfg t _ _) (by simp)
      (Rx.barren_of_run (Rx.run_cons cutOff []) (noRecord_cons (by simp) noRecord_nil)))

/-! ### Ready for the next frame -/

/-- After an `END` byte the decoder does not stand before a checksum byte: `END` is no body byte and no image (rule R6). -/
theorem Rx.ready_of_step_stop {cfg : Config} (hw : cfg.wf) {rx q : Rx} {r : RxResult}
    (h : rx.step cfg cfg.stop = some (q, r)) : q.Ready := by
  have special : special cfg cfg.stop = true := special_iff.2 (.inr (.inl rfl))
  cases Rx.move_of_step h with
  | opened | cut => exact rx.frameStart_ready
  | noise hs => exact Rx.ready_of_idle hs
  | short | badPair | ok | corrupt => exact Rx.ready_of_idle rfl
  | escape => exact fun h => by simp at h
  | plain _ hb => rw [special] at hb; exact Bool.noConfusion hb
  | image _ hb => rw [image_not_special hw special] at hb; exact Bool.noConfusion hb
  | latch => exact fun _ => rfl

/-- A run that ends with an `END` byte leaves the decoder ready. -/
theorem Rx.ready_of_run_stop {cfg : Config} (hw : cfg.wf) {rx q : Rx} {bytes : List Byte} {rs : List RxResult}
    (h : rx.run cfg (bytes ++ [cfg.stop]) = some (q, rs)) : q.Ready := by
  obtain ⟨_, _, _, _, last, _⟩ := Rx.run_concat_eq_some h
  exact Rx.ready_of_step_stop hw last

/-- Every byte of a frame but the last has the `END` after it. -/
theorem FrameCut.closing_or_stop {cfg : Config} {t : Transaction} {xs ys : List Byte} {b : Byte}
    (cut : FrameCut cfg t xs b ys) :
    (xs = cfg.start :: (body t.addr t.cmd t.payload).flatMap (stuff cfg) ++ [checksum t.addr t.cmd t.payload] ∧
      b = cfg.stop ∧ ys = []) ∨
    ∃ ys', ys = ys' ++ [cfg.stop] := by
  have rest : ∀ vs k, frameRest cfg vs k = (vs.flatMap (stuff cfg) ++ [k]) ++ [cfg.stop] := fun vs k => by
    rw [frameRest, List.append_assoc]
    rfl
  cases cut with
  | opening | plain | image => exact .inr ⟨_, rest _ _⟩
  | escape pre post v => exact .inr ⟨(v ^^^ cfg.mask) :: _, by rw [rest]; rfl⟩
  | csum => exact .inr ⟨[], rfl⟩
  | closing => exact .inl ⟨rfl, rfl, rfl⟩

/-- A lost byte leaves the decoder ready: only the loss of `END` leaves it in the frame, past the checksum. -/
theorem FrameCut.ready_lost {cfg : Config} (hw : cfg.wf) {rx q : Rx} (hi : rx.state = .idle) {t : Transaction}
    {xs ys : List Byte} {b : Byte} {rs : List RxResult} (cut : FrameCut cfg t xs b ys)
    (h : rx.run cfg (xs ++ ys) = some (q, rs)) : q.Ready := by
  rcases cut.closing_or_stop with ⟨rfl, rfl, rfl⟩ | ⟨ys', rfl⟩
  · obtain ⟨_, run, _⟩ := Rx.run_start_body hw hi t
    rw [List.append_nil] at h
    obtain ⟨mid, rs', r, first, last, _⟩ := Rx.run_concat_eq_some h
    rw [run] at first
    cases first
    cases last
    exact fun _ => rfl
  · rw [← List.append_assoc] at h
    exact Rx.ready_of_run_stop hw h

/-- A changed byte leaves the decoder ready: another byte in the place of `END` gives the frame up (rule R112). -/
theorem FrameCut.ready_changed {cfg : Config} (hw : cfg.wf) {rx q : Rx} (hi : rx.state = .idle) {t : Transaction}
    {xs ys : List Byte} {b new : Byte} {rs : List RxResult} (cut : FrameCut cfg t xs b ys) (changed : new ≠ b)
    (h : rx.run cfg (xs ++ new :: ys) = some (q, rs)) : q.Ready := by
  rcases cut.closing_or_stop with ⟨rfl, rfl, rfl⟩ | ⟨ys', rfl⟩
  · obtain ⟨_, run, _⟩ := Rx.run_start_body hw hi t
    rw [List.append_assoc] at h
    obtain ⟨mid, _, _, first, last, _⟩ := Rx.run_append_eq_some _ h
    rw [run] at first
    cases first
    obtain ⟨latched, _, _, latch, last, _⟩ := Rx.run_cons_eq_some last
    cases latch
    obtain ⟨_, _, _, close, last, _⟩ := Rx.run_cons_eq_some last
    cases last
    obtain ⟨_, cutOff, ready⟩ := Rx.step_awaitingStop_other t (checksum t.addr t.cmd t.payload) changed
    cases cutOff.symm.trans close
    exact ready
  · rw [← List.cons_append, ← List.append_assoc] at h
    exact Rx.ready_of_run_stop hw h

/-- After bytes that leave the decoder ready, the next whole frame is accepted, and its record is the first of its own. -/
theorem Rx.run_then_frame {cfg : Config} (hw : cfg.wf) {rx q : Rx} {bytes : List Byte} {rs : List RxResult}
    (h : rx.run cfg bytes = some (q, rs)) (ready : q.Ready) (t : Transaction) :
    ∃ rx' rs', rx.run cfg (bytes ++ t.frame cfg) = some (rx', rs' ++ [.frameOk t]) ∧ (NoRecord rs → NoRecord rs') := by
  obtain ⟨rx', own, _, run, silent⟩ := Rx.run_frame_of_ready hw ready t
  exact ⟨rx', rs ++ own, by rw [Rx.run_append h run, List.append_assoc], fun earlier => noRecord_append earlier silent⟩

/-- Settles O20: the damaged frame gives no record and leaves the decoder ready. -/
theorem oneLostByteCostsOneFrame : Obligations.OneLostByteCostsOneFrame := by
  unfold Obligations.OneLostByteCostsOneFrame
  intro cfg rx t1 t2 n hw hi hn
  have split : t1.frame cfg = (t1.frame cfg).take n ++ (t1.frame cfg)[n] :: (t1.frame cfg).drop (n + 1) := by
    rw [List.getElem_cons_drop, List.take_append_drop]
  have cut := frameCut_of_eq split
  obtain ⟨q, rs, run, _⟩ := Rx.run_inv (Rx.inv_of_idle hi) cfg ((t1.frame cfg).take n ++ (t1.frame cfg).drop (n + 1))
  obtain ⟨rx', rs', accepted, silent⟩ := Rx.run_then_frame hw run (cut.ready_lost hw hi run) t2
  rw [List.eraseIdx_eq_take_drop_succ]
  exact ⟨rx', rs', accepted, silent (cut.barren_lost hw hi q rs run)⟩

/-- Settles O21: the damaged frame leaves the decoder ready in every case, and gives no record but in the collision. -/
theorem oneChangedByteCostsOneFrame : Obligations.OneChangedByteCostsOneFrame := by
  unfold Obligations.OneChangedByteCostsOneFrame
  intro cfg rx t1 t2 n old new hw hi hold changed
  obtain ⟨hn, rfl⟩ := List.getElem?_eq_some_iff.1 hold
  have split : t1.frame cfg = (t1.frame cfg).take n ++ (t1.frame cfg)[n] :: (t1.frame cfg).drop (n + 1) := by
    rw [List.getElem_cons_drop, List.take_append_drop]
  have cut := frameCut_of_eq split
  obtain ⟨q, rs, run, _⟩ :=
    Rx.run_inv (Rx.inv_of_idle hi) cfg ((t1.frame cfg).take n ++ new :: (t1.frame cfg).drop (n + 1))
  obtain ⟨rx', rs', accepted, silent⟩ := Rx.run_then_frame hw run (cut.ready_changed hw hi changed run) t2
  rw [List.set_eq_take_append_cons_drop, if_pos hn]
  refine ⟨rx', rs', accepted, fun noCollision => silent (cut.barren_changed hw hi changed ?_ q rs run)⟩
  rintro ⟨hesc, long, plain⟩
  rw [List.length_drop] at long
  exact noCollision ⟨hesc, by omega, plain⟩

end Sys2Proof.Machine
end

section
/-! PROOFS of the family 'other', the command frames and the events of the loop: what an instruction does in each control state
(rules R110, R146 to R150, R161, R162), and the dispatch table (rules R13, R140). -/

namespace Sys2Proof.Machine

/-! ### The command frames -/

/-- Settles O27: the multiplexer answers with what the table selects. -/
theorem tableSelectsTheAnswer : Obligations.TableSelectsTheAnswer := by
  unfold Obligations.TableSelectsTheAnswer
  intro i s hctl
  exact exec_answers_selected i hctl

/-- Settles O23: the id of an `ESTOP` is 255. -/
theorem estopRunsItsHandler : Obligations.EstopRunsItsHandler := by
  unfold Obligations.EstopRunsItsHandler
  intro s a p k hctl
  exact exec_answers_selected (.estop a p k) hctl

/-- Settles O26: the table selects the handler bound to id 2. -/
theorem spin0RunsBoundHandler : Obligations.Spin0RunsBoundHandler := by
  unfold Obligations.Spin0RunsBoundHandler
  intro s a p k h hctl bound
  rw [← State.selected_of_bound bound]
  exact exec_answers_selected (.spin0 a p k) hctl

/-- Settles O28: the verdict on the checksum and, where it is good, the address filter. -/
theorem commandFrameIsValidatedAndFiltered : Obligations.CommandFrameIsValidatedAndFiltered := by
  unfold Obligations.CommandFrameIsValidatedAndFiltered
  intro i s hctl
  rw [exec_waiting i hctl, Rx.finish_eq]
  by_cases good : i.csum = s.rx.xor
  · rw [if_pos good, if_pos good]
    by_cases mine : i.addr = s.cfg.myAddr
    · rw [if_pos mine, State.handOff_mine s _ _ mine]
      rfl
    · rw [if_neg mine, State.handOff_foreign s _ _ mine]
      rfl
  · rw [if_neg good, if_neg good]
    rfl

/-- Outside the two control states that consume it a command frame changes nothing (log 10). -/
theorem State.command_elsewhere {s : State} (hw : s.ctl ≠ .waitingForFrame) (hd : s.ctl ≠ .dispatching) (a c : Byte)
    (p : Payload) (k : Byte) : s.command a c p k = s := by
  unfold State.command
  cases hc : s.ctl with
  | waitingForFrame => exact absurd hc hw
  | dispatching => exact absurd hc hd
  | registering | replying | halted => rfl

/-- Settles O29: all four command frames are `State.command`. -/
theorem commandFrameWaitsElsewhere : Obligations.CommandFrameWaitsElsewhere := by
  unfold Obligations.CommandFrameWaitsElsewhere
  intro i s hw hd
  cases i with
  | estop a p k => exact congrArg Host.Outcome.next (State.command_elsewhere hw hd a 255 p k)
  | cmd a c p k => exact congrArg Host.Outcome.next (State.command_elsewhere hw hd a c p k)
  | unknown a c p k => exact congrArg Host.Outcome.next (State.command_elsewhere hw hd a c p k)
  | spin0 a p k => exact congrArg Host.Outcome.next (State.command_elsewhere hw hd a 2 p k)

/-- An event that puts a frame into effect runs the instruction decoded from that frame's bytes. -/
theorem step_runs_decoded {s : State} {e : Event} {f : Fields} {i : Instr} (hw : s.cfg.wf) (next : s.nextEvent = some e)
    (frame : s.begin.frameAt e = some f)
    (decoded : decode s.cfg (DispatchTable.bound s.dt) (encodeFields s.cfg f) = .ok i) :
    step s = exec i s.begin := by
  rw [decode_encodeFields hw, Except.ok.injEq] at decoded
  have fetched : s.begin.fetch e = some i := by rw [State.fetch, frame, ← decoded]; rfl
  rw [step_of_event hw next, stepEvent, fetched]

/-- Settles O30: the two events that put a frame into effect, at the `END` byte and at `Dispatch`. -/
theorem stepRunsDecodedInstruction : Obligations.StepRunsDecodedInstruction := by
  unfold Obligations.StepRunsDecodedInstruction
  intro s i hw
  constructor
  · intro hctl hs hc next decoded
    have frame : s.begin.frameAt (.rxByte s.cfg.stop) = some s.receivedFields := if_pos ⟨hctl, hs, hc, rfl⟩
    exact step_runs_decoded hw next frame decoded
  · intro hctl next decoded
    have frame : s.begin.frameAt .dispatch = some s.requestFields := if_pos hctl
    exact step_runs_decoded hw next frame decoded

/-! ### Events that are enabled in some control states only -/

/-- Settles O31: in `Dispatching` the multiplexer runs on the accepted request. -/
theorem dispatchAnswersTheRequest : Obligations.DispatchAnswersTheRequest := by
  unfold Obligations.DispatchAnswersTheRequest
  intro s
  refine State.takes_of_stepEvent ?_
  rw [stepEvent_dispatch, State.begin_ctl, State.dispatch_eq_answered]
  by_cases hctl : s.ctl = .dispatching
  · rw [if_pos hctl, if_pos hctl]
    rfl
  · rw [if_neg hctl, if_neg hctl]
    rfl

/-- In `Replying` the byte at `tx_idx` is sent (rule R132). -/
theorem txByte_of_replying {s : State} {b : Byte} (hctl : s.ctl = .replying) (hb : s.txBuf[s.txIdx]? = some b) :
    txByte s = .next (s.sendByte b) := by
  rw [txByte, if_pos hctl, hb]

/-- Elsewhere `TxByte` changes nothing (log 7). -/
theorem txByte_elsewhere {s : State} (hctl : s.ctl ≠ .replying) : txByte s = .next s := if_neg hctl

/-- Settles O32: in `Replying` one byte is sent. -/
theorem txByteSendsTheNextByte : Obligations.TxByteSendsTheNextByte := by
  unfold Obligations.TxByteSendsTheNextByte
  intro s b hb
  refine State.takes_of_stepEvent ?_
  rw [stepEvent_txByte]
  by_cases hctl : s.ctl = .replying
  · rw [if_pos hctl, txByte_of_replying (s := s.begin) hctl (hb hctl), State.sendByte, State.begin_ctl, hctl]
    rfl
  · rw [if_neg hctl, txByte_elsewhere (s := s.begin) hctl]
    rfl

/-- The running states, spelled out (rule R212). -/
theorem Ctl.running_iff (c : Ctl) : c.running = true ↔ c = .waitingForFrame ∨ c = .dispatching ∨ c = .replying := by
  cases c <;> decide

/-- Settles O46: the board is the one field that control writes. -/
theorem controlStepWritesBoardAlone : Obligations.ControlStepWritesBoardAlone := by
  unfold Obligations.ControlStepWritesBoardAlone
  intro s x
  refine State.takes_of_stepEvent ?_
  rw [stepEvent_controlStep, controlStep, State.begin_ctl]
  simp only [Ctl.running_iff]
  by_cases running : s.ctl = .waitingForFrame ∨ s.ctl = .dispatching ∨ s.ctl = .replying
  · rw [if_pos running, if_pos running]
    rfl
  · rw [if_neg running, if_neg running]
    rfl

/-- Settles O48: no event is at hand, and the empty queue has no tail. -/
theorem quiescentBlockWaits : Obligations.QuiescentBlockWaits := by
  unfold Obligations.QuiescentBlockWaits
  intro s hw empty notDispatching notReplying
  have none : s.nextEvent = none := by
    rw [State.nextEvent_nil empty]
    cases hc : s.ctl with
    | dispatching => exact absurd hc notDispatching
    | replying => exact absurd hc notReplying
    | registering | waitingForFrame | halted => rfl
  rw [step_of_none hw none, State.begin, empty]
  rfl

/-! ### The dispatch table -/

/-- Reading one entry after binding one (rule R140). -/
theorem DispatchTable.find_bind (id c : Byte) (h : HandlerRef) (t : DispatchTable) :
    DispatchTable.find (DispatchTable.bind id h t) c = if c = id then some h else DispatchTable.find t c := by
  induction t with
  | nil =>
    rw [DispatchTable.bind, DispatchTable.find_cons]
    simp only [eq_comm]
  | cons row t ih =>
    obtain ⟨k, g⟩ := row
    rw [DispatchTable.bind]
    split
    · rw [DispatchTable.find_cons]
      simp only [eq_comm]
    · split
      · rename_i same
        subst same
        rw [DispatchTable.find_cons, DispatchTable.find_cons]
        by_cases hc : c = id
        · rw [if_pos hc.symm, if_pos hc]
        · rw [if_neg (Ne.symm hc), if_neg hc, if_neg (Ne.symm hc)]
      · rename_i other
        rw [DispatchTable.find_cons, DispatchTable.find_cons, ih]
        by_cases hc : k = c
        · subst hc
          rw [if_pos rfl, if_pos rfl, if_neg (Ne.symm other)]
        · rw [if_neg hc, if_neg hc]

/-- Settles O41: the law of the array. -/
theorem bindWritesOneEntry : Obligations.BindWritesOneEntry := by
  unfold Obligations.BindWritesOneEntry
  intro t id c h
  exact DispatchTable.find_bind id c h t

/-- In canonical form the ids after the head are greater. -/
theorem DispatchTable.wf_cons {k : Byte} {g : HandlerRef} {t : DispatchTable} :
    DispatchTable.wf ((k, g) :: t) ↔ (∀ r ∈ t, k.toNat < r.1.toNat) ∧ DispatchTable.wf t := by
  simp only [DispatchTable.wf, List.map_cons, List.pairwise_cons, List.forall_mem_map]

/-- In canonical form the entry of an id is its row (log 5). -/
theorem DispatchTable.find_eq_some_iff {t : DispatchTable} (ht : DispatchTable.wf t) {c : Byte} {h : HandlerRef} :
    DispatchTable.find t c = some h ↔ (c, h) ∈ t := by
  induction t with
  | nil => simp
  | cons row t ih =>
    obtain ⟨k, g⟩ := row
    obtain ⟨above, hwf⟩ := DispatchTable.wf_cons.1 ht
    rw [DispatchTable.find_cons, List.mem_cons]
    by_cases hk : k = c
    · subst hk
      have unique : (k, h) ∉ t := fun hm => Nat.lt_irrefl _ (above _ hm)
      rw [if_pos rfl]
      simp [unique, eq_comm]
    · rw [if_neg hk, ih hwf]
      simp [Ne.symm hk]

/-- In canonical form equal entries are equal data (log 5). -/
theorem DispatchTable.ext_of_find {t u : DispatchTable} (ht : DispatchTable.wf t) (hu : DispatchTable.wf u)
    (h : ∀ c, DispatchTable.find t c = DispatchTable.find u c) : t = u := by
  have rising : ∀ {v : DispatchTable}, DispatchTable.wf v → v.Pairwise fun r r' => r.1.toNat < r'.1.toNat :=
    fun hv => List.pairwise_map.1 hv
  have distinct : ∀ {v : DispatchTable}, DispatchTable.wf v → v.Nodup :=
    fun hv => List.Pairwise.imp (S := (· ≠ ·))
      (fun less same => Nat.ne_of_lt less (congrArg (fun r => r.1.toNat) same)) (rising hv)
  have sameRows : t.Perm u := (List.perm_ext_iff_of_nodup (distinct ht) (distinct hu)).2 fun r => by
    rw [← DispatchTable.find_eq_some_iff ht, ← DispatchTable.find_eq_some_iff hu, h]
  exact sameRows.eq_of_pairwise (fun _ _ _ _ less more => absurd (Nat.lt_trans less more) (Nat.lt_irrefl _))
    (rising ht) (rising hu)

/-- Settles O42: both orders give canonical tables with the same entries. -/
theorem registrationOrderIsIrrelevant : Obligations.RegistrationOrderIsIrrelevant := by
  unfold Obligations.RegistrationOrderIsIrrelevant
  intro t i j h g ht different
  refine DispatchTable.ext_of_find (DispatchTable.wf_bind i h (DispatchTable.wf_bind j g ht))
    (DispatchTable.wf_bind j g (DispatchTable.wf_bind i h ht)) fun c => ?_
  simp only [DispatchTable.find_bind]
  by_cases hi : c = i
  · rw [if_pos hi, if_pos hi, if_neg (hi ▸ different)]
  · rw [if_neg hi, if_neg hi]

end Sys2Proof.Machine
end

section
/-! PROOFS of the family 'other', what every step leaves alone (rules R13, R23, R134, R166, R170, R172): the frame of each
operation, said once, and from it what each event can write. -/

namespace Sys2Proof.Machine

/-! ### The frame of each operation -/

/-- `Register` writes `DT`, or `ctl` and `boot_err` (rules R140, R141). -/
theorem register_frame (id : Byte) (h : HandlerRef) (s : State) :
    ∃ c e t, register id h s = { s with ctl := c, bootErr := e, dt := t } := by
  rcases register_cases id h s with ⟨_, ignored⟩ | ⟨_, _, bound⟩ | ⟨_, _, halted⟩
  · exact ⟨s.ctl, s.bootErr, s.dt, ignored⟩
  · exact ⟨s.ctl, s.bootErr, _, bound⟩
  · exact ⟨_, _, s.dt, halted⟩

/-- `Start` writes `ctl` and `boot_err` (rule R143). -/
theorem start_frame (s : State) : ∃ c e, start s = { s with ctl := c, bootErr := e } := by
  rcases start_cases s with ⟨_, ignored⟩ | ⟨_, _, started⟩ | ⟨_, _, halted⟩
  · exact ⟨s.ctl, s.bootErr, ignored⟩
  · exact ⟨_, s.bootErr, started⟩
  · exact ⟨_, _, halted⟩

/-- A consumed byte writes the receive registers, and on acceptance `ctl` and the request registers (rules R100, R161). -/
theorem State.handOff_frame (s : State) (r : Rx × RxResult) :
    ∃ c id p, s.handOff r = { s with rx := r.1, out := Output.ofRx r.2, ctl := c, reqCmd := id, reqPayload := p } := by
  rcases s.handOff_cases r with taken | ⟨t, _, _, accepted⟩
  · exact ⟨s.ctl, s.reqCmd, s.reqPayload, taken⟩
  · exact ⟨_, _, _, accepted⟩

/-- `Register` after the boot phase is ignored (rule R142). -/
theorem register_late {s : State} (hc : s.ctl ≠ .registering) (id : Byte) (h : HandlerRef) : register id h s = s :=
  if_neg hc

/-- `Start` after the boot phase is ignored (rule R143). -/
theorem start_late {s : State} (hc : s.ctl ≠ .registering) : start s = s := if_neg hc

/-- `RxTimeout` outside `WaitingForFrame` is ignored (rule R114). -/
theorem rxTimeout_busy {s : State} (hc : s.ctl ≠ .waitingForFrame) : rxTimeout s = s := if_neg fun h => hc h.1

/-! ### What each event can write -/

/-- After registration only `Reset` writes the table (rules R13, R52). -/
theorem Effect.dt {s t : State} {e : Event} (h : Effect s e t) (hc : s.ctl ≠ .registering) (he : e ≠ .reset) :
    t.dt = s.dt := by
  cases h with
  | reset => exact absurd rfl he
  | register id g => rw [register_late hc]
  | start => rw [start_late hc]
  | receive b r => obtain ⟨_, _, _, frame⟩ := s.handOff_frame r; rw [frame]
  | timeout => rcases rxTimeout_cases s with ignored | ⟨_, _, gaveUp⟩ <;> simp only [*, State.takeRx_dt]
  | control x => rcases controlStep_cases x s with ⟨_, ignored⟩ | ⟨_, ran⟩ <;> simp only [*]
  | dispatch => rw [State.dispatch_eq, State.loadReply_dt, State.respond_dt]
  | tx b => exact s.sendByte_dt b
  | discard | noDispatch | noTx => rfl

/-- Only `Dispatch`, `Reset` and `ControlStep` write the board, and what they write (rule R23). -/
theorem Effect.board {s t : State} {e : Event} (h : Effect s e t) :
    t.board = s.board ∨
    (e = .dispatch ∧ s.ctl = .dispatching ∧ t.board = (s.selected s.reqCmd s.reqPayload).board) ∨
    e = .reset ∨
    ∃ x, e = .controlStep x ∧ t.board = ControlRef.run s.cfg.control s.board x := by
  cases h with
  | reset => exact .inr (.inr (.inl rfl))
  | register id g => obtain ⟨_, _, _, frame⟩ := register_frame id g s; rw [frame]; exact .inl rfl
  | start => obtain ⟨_, _, frame⟩ := start_frame s; rw [frame]; exact .inl rfl
  | receive b r => obtain ⟨_, _, _, frame⟩ := s.handOff_frame r; rw [frame]; exact .inl rfl
  | timeout =>
    rcases rxTimeout_cases s with ignored | ⟨_, _, gaveUp⟩
    · rw [ignored]; exact .inl rfl
    · rw [gaveUp]; exact .inl rfl
  | control x =>
    rcases controlStep_cases x s with ⟨_, ignored⟩ | ⟨_, ran⟩
    · rw [ignored]; exact .inl rfl
    · rw [ran]; exact .inr (.inr (.inr ⟨x, rfl, rfl⟩))
  | dispatch hc =>
    rw [State.dispatch_eq_answered]
    exact .inr (.inl ⟨rfl, hc, rfl⟩)
  | tx b => exact .inl (s.sendByte_board b)
  | discard | noDispatch | noTx => exact .inl rfl

/-- A byte is put out by `TxByte` in `Replying` alone (rule R166). -/
theorem Effect.tx_cases {s t : State} {e : Event} (h : Effect s e t) (silent : s.out.tx = none) :
    t.out.tx = none ∨ (s.ctl = .replying ∧ ∃ b, s.txBuf[s.txIdx]? = some b ∧ t = s.sendByte b) := by
  cases h with
  | reset => exact .inl rfl
  | register id g => obtain ⟨_, _, _, frame⟩ := register_frame id g s; rw [frame]; exact .inl silent
  | start => obtain ⟨_, _, frame⟩ := start_frame s; rw [frame]; exact .inl silent
  | receive b r => obtain ⟨_, _, _, frame⟩ := s.handOff_frame r; rw [frame]; exact .inl rfl
  | timeout =>
    rcases rxTimeout_cases s with ignored | ⟨_, _, gaveUp⟩
    · rw [ignored]; exact .inl silent
    · rw [gaveUp]; exact .inl rfl
  | control x =>
    rcases controlStep_cases x s with ⟨_, ignored⟩ | ⟨_, ran⟩
    · rw [ignored]; exact .inl silent
    · rw [ran]; exact .inl silent
  | dispatch => rw [State.dispatch_eq]; exact .inl rfl
  | tx b hc hb => exact .inr ⟨hc, b, hb, rfl⟩
  | discard | noDispatch | noTx => exact .inl silent

/-- All that can happen in `Replying` but a `Reset` (rule R134). -/
theorem Effect.of_replying {s t : State} {e : Event} (h : Effect s e t) (hc : s.ctl = .replying) (he : e ≠ .reset) :
    (e ≠ .txByte ∧ ∃ board, t = { s with board := board }) ∨
    (e = .txByte ∧ ∃ b, s.txBuf[s.txIdx]? = some b ∧ t = s.sendByte b) := by
  have kept : t = s → e ≠ .txByte → (e ≠ .txByte ∧ ∃ board, t = { s with board := board }) ∨
      (e = .txByte ∧ ∃ b, s.txBuf[s.txIdx]? = some b ∧ t = s.sendByte b) :=
    fun same other => .inl ⟨other, s.board, same⟩
  have late : s.ctl ≠ .registering := by simp [hc]
  have busy : s.ctl ≠ .waitingForFrame := by simp [hc]
  cases h with
  | reset => exact absurd rfl he
  | register id g => exact kept (register_late late id g) (by simp)
  | start => exact kept (start_late late) (by simp)
  | receive b r hw => exact absurd hw busy
  | timeout => exact kept (rxTimeout_busy busy) (by simp)
  | control x =>
    rcases controlStep_cases x s with ⟨_, ignored⟩ | ⟨_, ran⟩
    · exact kept ignored (by simp)
    · exact .inl ⟨by simp, _, ran⟩
  | dispatch hd => simp [hc] at hd
  | noTx hn => exact absurd hc hn
  | tx b _ hb => exact .inr ⟨rfl, b, hb, rfl⟩
  | discard | noDispatch => exact kept rfl (by simp)

/-- Nothing happens in `Halted` but a `Reset` (rule R172). -/
theorem Effect.of_halted {s t : State} {e : Event} (h : Effect s e t) (hc : s.ctl = .halted) (he : e ≠ .reset) : t = s := by
  cases h with
  | reset => exact absurd rfl he
  | register id g => exact register_late (by simp [hc]) id g
  | start => exact start_late (by simp [hc])
  | receive b r hw => simp [hc] at hw
  | timeout => exact rxTimeout_busy (by simp [hc])
  | control x =>
    rcases controlStep_cases x s with ⟨_, ignored⟩ | ⟨running, _⟩
    · exact ignored
    · simp [hc, Ctl.running] at running
  | dispatch hd => simp [hc] at hd
  | tx b hr => simp [hc] at hr
  | discard | noDispatch | noTx => rfl

/-! ### What each step can write -/

/-- Settles O53: taking an event does not touch the table either. -/
theorem tableIsFixedAfterRegistration : Obligations.TableIsFixedAfterRegistration := by
  unfold Obligations.TableIsFixedAfterRegistration
  intro s t h late noReset
  obtain ⟨_, ⟨_, rfl⟩ | ⟨e, next, effect⟩⟩ := step_next h
  · exact s.begin_dt
  · exact effect.dt late fun he => noReset (he ▸ next)

/-- Settles O55: the three writers of `Effect.board`. -/
theorem onlyThreeEventsWriteTheBoard : Obligations.OnlyThreeEventsWriteTheBoard := by
  unfold Obligations.OnlyThreeEventsWriteTheBoard
  intro s t h changed
  obtain ⟨_, ⟨_, rfl⟩ | ⟨e, next, effect⟩⟩ := step_next h
  · exact absurd s.begin_board changed
  · rcases effect.board with same | ⟨rfl, hc, _⟩ | rfl | ⟨x, rfl, _⟩
    · exact absurd same changed
    · exact .inl ⟨next, hc⟩
    · exact .inr (.inl next)
    · exact .inr (.inr ⟨x, next⟩)

/-- Settles O33: a step begins with no output, so the byte is that of `TxByte`. -/
theorem onlyRepliesAreEmitted : Obligations.OnlyRepliesAreEmitted := by
  unfold Obligations.OnlyRepliesAreEmitted
  intro s t b h emitted
  obtain ⟨_, ⟨_, rfl⟩ | ⟨e, _, effect⟩⟩ := step_next h
  · cases emitted
  · rcases effect.tx_cases rfl with silent | ⟨hc, b', hb, rfl⟩
    · rw [silent] at emitted
      cases emitted
    · cases emitted
      exact ⟨hc, hb, rfl⟩

/-- Settles O34: of all that can happen in `Replying`, only `TxByte` writes a transmit register, and that is `tx_idx`. -/
theorem replySurvivesOtherEvents : Obligations.ReplySurvivesOtherEvents := by
  unfold Obligations.ReplySurvivesOtherEvents
  intro s t h hc noReset
  obtain ⟨_, ⟨_, rfl⟩ | ⟨e, next, effect⟩⟩ := step_next h
  · exact ⟨rfl, rfl, fun _ => ⟨hc, rfl⟩⟩
  · rcases effect.of_replying hc fun he => noReset (he ▸ next) with ⟨_, board, rfl⟩ | ⟨rfl, b, _, rfl⟩
    · exact ⟨rfl, rfl, fun _ => ⟨hc, rfl⟩⟩
    · exact ⟨rfl, rfl, fun other => absurd next other⟩

/-- Settles O56: of `Halted` only the taking of the event is left. -/
theorem haltedIsLeftByResetOnly : Obligations.HaltedIsLeftByResetOnly := by
  unfold Obligations.HaltedIsLeftByResetOnly
  intro s t h hc noReset
  obtain ⟨_, ⟨_, rfl⟩ | ⟨e, next, effect⟩⟩ := step_next h
  · rfl
  · exact effect.of_halted hc fun he => noReset (he ▸ next)

/-- An emergency stop leaves a neutral board (rule R170, its first premise). -/
theorem State.SafetyPremises.estop {s : State} (premises : s.SafetyPremises) (safe : DispatchTable.find s.dt 255 ≠ none)
    (p : Payload) : NeutralRef.holds s.cfg.neutral (s.selected 255 p).board = true := by
  obtain ⟨makesNeutral, _⟩ := premises
  obtain ⟨g, bound⟩ := Option.ne_none_iff_exists'.1 safe
  rw [State.selected_of_bound bound]
  exact makesNeutral g bound p s.board

/-- Settles O57: the handler of 255 and `control` are the only writers of the board there are. -/
theorem emergencyStopHolds : Obligations.EmergencyStopHolds := by
  unfold Obligations.EmergencyStopHolds
  intro s t premises h
  rw [configurationNeverChanges s t h]
  obtain ⟨_, ⟨none, rfl⟩ | ⟨e, next, effect⟩⟩ := step_next h
  · exact ⟨fun _ dispatch => by simp [none] at dispatch, fun _ _ neutral => neutral⟩
  constructor
  · intro hc dispatch stop safe
    cases next.symm.trans dispatch
    cases effect with
    | noDispatch hn => exact absurd hc hn
    | dispatch =>
      rw [State.dispatch_eq_answered, State.begin_reqCmd, stop]
      exact premises.estop safe s.reqPayload
  · intro noDispatch noReset neutral
    rcases effect.board with same | ⟨rfl, _⟩ | rfl | ⟨x, rfl, ran⟩
    · rw [same]
      exact neutral
    · exact absurd next noDispatch
    · exact absurd next noReset
    · obtain ⟨_, keepsNeutral⟩ := premises
      rw [ran]
      exact keepsNeutral s.board x neutral

end Sys2Proof.Machine
end

section
/-! PROOFS of the family 'other', the invariant of rule R32: it holds at reset, every event keeps it, and under it no event
stops the block (rule R192). -/

namespace Sys2Proof.Machine

/-! ### Reset -/

/-- The reset state of every configuration meets the invariant (rules R32, R33). -/
theorem State.inv_resetOf (cfg : Config) (events : List Event) : (State.resetOf cfg events).Inv :=
  ⟨fun _ => rfl, Rx.inv_of_idle rfl, ⟨rfl, fun h => by simp at h, fun _ => rfl⟩, by simp,
    fun h => by simp [Ctl.running] at h, fun _ => rfl, List.Pairwise.nil⟩

/-- Settles O49: `CFG0` has the reference bytes and address 1. -/
theorem resetMeetsInvariant : Obligations.ResetMeetsInvariant := by
  unfold Obligations.ResetMeetsInvariant
  exact ⟨State.inv_resetOf Config.cfg0 [], by decide⟩

/-! ### Every event keeps the invariant -/

/-- The invariant does not speak of the queue and the outputs (logs 7, 8). -/
theorem State.inv_begin {s : State} : s.begin.Inv ↔ s.Inv := Iff.rfl

theorem State.Inv.rx {s : State} (h : s.Inv) : s.rx.Inv := by
  obtain ⟨_, rxInv, _⟩ := h
  exact rxInv

theorem State.Inv.txLen {s : State} (h : s.Inv) : s.txLen = s.txBuf.length := by
  obtain ⟨_, _, ⟨length, _, _⟩, _⟩ := h
  exact length

/-- In `Replying` there is a byte left to send (rule R22). -/
theorem State.Inv.txIdx_lt {s : State} (h : s.Inv) (hc : s.ctl = .replying) : s.txIdx < s.txLen := by
  obtain ⟨_, _, ⟨_, reply, _⟩, _⟩ := h
  obtain ⟨_, _, inside, _⟩ := reply hc
  exact inside

/-- Aborting the boot phase (rules R203, R204). -/
theorem State.inv_abort {s : State} (h : s.Inv) (hc : s.ctl = .registering) (e : BootError) : (s.abort e).Inv := by
  obtain ⟨rxIdle, rxInv, ⟨length, _, sent⟩, _, _, board, table⟩ := h
  exact ⟨fun _ => rxIdle (by simp [hc]), rxInv, ⟨length, fun h => by simp at h, fun _ => sent (by simp [hc])⟩, by simp,
    fun h => by simp [Ctl.running] at h, fun _ => board (by simp [hc, Ctl.running]), table⟩

theorem State.inv_register {s : State} (h : s.Inv) (id : Byte) (g : HandlerRef) : (register id g s).Inv := by
  rcases register_cases id g s with ⟨_, ignored⟩ | ⟨hc, _, bound⟩ | ⟨hc, _, halted⟩
  · rwa [ignored]
  · obtain ⟨rxIdle, rxInv, tx, boot, _, board, table⟩ := h
    rw [bound]
    exact ⟨rxIdle, rxInv, tx, boot, fun running => by simp [hc, Ctl.running] at running, board,
      DispatchTable.wf_bind id g table⟩
  · rw [halted]
    exact State.inv_abort h hc _

theorem State.inv_start {s : State} (h : s.Inv) : (start s).Inv := by
  rcases start_cases s with ⟨_, ignored⟩ | ⟨hc, safe, started⟩ | ⟨hc, _, halted⟩
  · rwa [ignored]
  · obtain ⟨_, rxInv, ⟨length, _, sent⟩, boot, _, _, table⟩ := h
    rw [started]
    exact ⟨fun h => absurd rfl h, rxInv, ⟨length, fun h => by simp at h, fun _ => sent (by simp [hc])⟩,
      by simpa [hc] using boot, fun _ => safe, fun h => by simp [Ctl.running] at h, table⟩
  · rw [halted]
    exact State.inv_abort h hc _

/-- The receive registers may change in `WaitingForFrame`, within items 2 and 3 of rule R32. -/
theorem State.inv_takeRx {s : State} (h : s.Inv) (hc : s.ctl = .waitingForFrame) {r : Rx × RxResult} (hr : r.1.Inv) :
    (s.takeRx r).Inv := by
  obtain ⟨_, _, tx, boot, safe, board, table⟩ := h
  exact ⟨fun busy => absurd hc busy, hr, tx, boot, safe, board, table⟩

/-- Acceptance leaves the decoder in `Idle` (rules R110, R161). -/
theorem State.inv_accept {s : State} (h : s.Inv) (hc : s.ctl = .waitingForFrame) (hi : s.rx.state = .idle)
    (t : Transaction) : (s.accept t).Inv := by
  obtain ⟨_, rxInv, ⟨length, _, sent⟩, boot, safe, _, table⟩ := h
  exact ⟨fun _ => hi, rxInv, ⟨length, fun h => by simp at h, fun _ => sent (by simp [hc])⟩, by simpa [hc] using boot,
    fun _ => safe (by simp [hc, Ctl.running]), fun h => by simp [Ctl.running] at h, table⟩

/-- A record is reported on entering `Idle` (rule R110). -/
theorem Rx.idle_of_frameOk {cfg : Config} {rx rx' : Rx} {b : Byte} {t : Transaction}
    (h : rx.step cfg b = some (rx', .frameOk t)) : rx'.state = .idle := by
  cases Rx.move_of_step h with
  | ok => rfl

theorem State.inv_handOff {s : State} (h : s.Inv) (hc : s.ctl = .waitingForFrame) {b : Byte} {r : Rx × RxResult}
    (hr : s.rx.step s.cfg b = some r) : (s.handOff r).Inv := by
  have taken : (s.takeRx r).Inv := State.inv_takeRx h hc (Rx.inv_step h.rx hr)
  rcases s.handOff_cases r with notMine | ⟨t, verdict, _, accepted⟩
  · rwa [notMine]
  · rw [accepted]
    exact State.inv_accept taken hc (Rx.idle_of_frameOk (hr.trans (congrArg (fun x => some (r.1, x)) verdict))) t

theorem State.inv_rxTimeout {s : State} (h : s.Inv) : (rxTimeout s).Inv := by
  rcases rxTimeout_cases s with ignored | ⟨hc, _, gaveUp⟩
  · rwa [ignored]
  · rw [gaveUp]
    exact State.inv_takeRx h hc (Rx.inv_of_idle rfl)

theorem State.inv_controlStep {s : State} (h : s.Inv) (x : Sensors) : (controlStep x s).Inv := by
  rcases controlStep_cases x s with ⟨_, ignored⟩ | ⟨running, ran⟩
  · rwa [ignored]
  · obtain ⟨rxIdle, rxInv, tx, boot, safe, _, table⟩ := h
    rw [ran]
    exact ⟨rxIdle, rxInv, tx, boot, safe, fun halted => by simp [running] at halted, table⟩

/-- The answer loads a whole frame, none of it sent (rules R22, R70, R131). -/
theorem State.inv_answered {s : State} (h : s.Inv) (hc : s.ctl = .dispatching) (r : HandlerResult) :
    (s.answered s.reqCmd r).Inv := by
  obtain ⟨rxIdle, rxInv, _, boot, safe, _, table⟩ := h
  obtain ⟨least, most⟩ := length_encode_bounds s.cfg s.cfg.myAddr s.reqCmd r.resp
  exact ⟨fun _ => rxIdle (by simp [hc]), rxInv,
    ⟨rfl, fun _ => ⟨least, most, Nat.lt_of_lt_of_le (Nat.zero_lt_succ 8) least, rfl⟩, fun h => absurd rfl h⟩,
    by simpa [State.answered, hc] using boot, fun _ => safe (by simp [hc, Ctl.running]),
    fun h => by simp [State.answered, Ctl.running] at h, table⟩

/-- The last byte of the reply returns the loop to `WaitingForFrame` (rule R133). -/
theorem State.sendByte_last {s : State} (last : s.txIdx + 1 = s.txLen) (b : Byte) :
    s.sendByte b = { s with ctl := .waitingForFrame, txIdx := s.txLen, out := Output.ofTx b } := by
  rw [State.sendByte, if_pos last, last]

/-- Any other byte of the reply only moves `tx_idx` on (rule R132). -/
theorem State.sendByte_more {s : State} (more : s.txIdx + 1 ≠ s.txLen) (b : Byte) :
    s.sendByte b = { s with txIdx := s.txIdx + 1, out := Output.ofTx b } := by
  rw [State.sendByte, if_neg more]

/-- A byte sent leaves one to send, or the loop waits again (rules R132, R133). -/
theorem State.inv_sendByte {s : State} (h : s.Inv) (hc : s.ctl = .replying) (b : Byte) : (s.sendByte b).Inv := by
  obtain ⟨rxIdle, rxInv, ⟨length, reply, _⟩, boot, safe, board, table⟩ := h
  by_cases last : s.txIdx + 1 = s.txLen
  · rw [State.sendByte_last last]
    exact ⟨fun _ => rxIdle (by simp [hc]), rxInv, ⟨length, fun h => by simp at h, fun _ => rfl⟩, by simpa [hc] using boot,
      fun _ => safe (by simp [hc, Ctl.running]), fun h => by simp [Ctl.running] at h, table⟩
  · obtain ⟨least, most, inside, frame⟩ := reply hc
    have stillInside : s.txIdx + 1 < s.txLen := by omega
    rw [State.sendByte_more last]
    exact ⟨rxIdle, rxInv, ⟨length, fun _ => ⟨least, most, stillInside, frame⟩, fun h => absurd hc h⟩, boot, safe, board,
      table⟩

/-- Every event keeps the invariant (rule R32). -/
theorem Effect.inv {s t : State} {e : Event} (h : Effect s e t) (hi : s.Inv) : t.Inv := by
  cases h with
  | reset => exact State.inv_resetOf s.cfg s.pending
  | register id g => exact State.inv_register hi id g
  | start => exact State.inv_start hi
  | receive b r hc hr => exact State.inv_handOff hi hc hr
  | timeout => exact State.inv_rxTimeout hi
  | control x => exact State.inv_controlStep hi x
  | dispatch hc =>
    rw [State.dispatch_eq_answered]
    exact State.inv_answered hi hc _
  | tx b hc => exact State.inv_sendByte hi hc b
  | discard | noDispatch | noTx => exact hi

/-- Settles O50: the invariant does not see the taking of an event, and every event keeps it. -/
theorem everyStepKeepsInvariant : Obligations.EveryStepKeepsInvariant := by
  unfold Obligations.EveryStepKeepsInvariant
  intro s t hi h
  obtain ⟨_, ⟨_, rfl⟩ | ⟨e, _, effect⟩⟩ := step_next h
  · exact State.inv_begin.2 hi
  · exact effect.inv (State.inv_begin.2 hi)

/-! ### No event stops the block -/

/-- In `Replying` there is a byte at `tx_idx` (rule R22). -/
theorem State.Inv.txByte {s : State} (hi : s.Inv) (hc : s.ctl = .replying) : ∃ b, s.txBuf[s.txIdx]? = some b :=
  ⟨_, List.getElem?_eq_getElem (hi.txLen ▸ hi.txIdx_lt hc)⟩

/-- Under the invariant every event has a next state (rule R192): the two events that could fault find what they read. -/
theorem stepEvent_total {s : State} (hi : s.Inv) (e : Event) : ∃ t, stepEvent e s = .next t := by
  cases e with
  | rxByte b =>
    rw [stepEvent_rxByte, rxByte]
    split
    · obtain ⟨r, hr⟩ := Option.isSome_iff_exists.1 (Rx.step_isSome hi.rx s.cfg b)
      exact ⟨_, by rw [hr]⟩
    · exact ⟨s, rfl⟩
  | txByte =>
    rw [stepEvent_txByte]
    by_cases hc : s.ctl = .replying
    · obtain ⟨b, hb⟩ := hi.txByte hc
      exact ⟨_, txByte_of_replying hc hb⟩
    · exact ⟨s, txByte_elsewhere hc⟩
  | dispatch => exact ⟨_, stepEvent_dispatch s⟩
  | reset => exact ⟨_, stepEvent_reset s⟩
  | register id g => exact ⟨_, stepEvent_register id g s⟩
  | start => exact ⟨_, stepEvent_start s⟩
  | rxTimeout => exact ⟨_, stepEvent_rxTimeout s⟩
  | controlStep x => exact ⟨_, stepEvent_controlStep x s⟩

/-- Settles O51: with or without an event at hand there is a next state. -/
theorem invariantStatesNeverStop : Obligations.InvariantStatesNeverStop := by
  unfold Obligations.InvariantStatesNeverStop
  intro s hw hi
  cases he : s.nextEvent with
  | none => exact ⟨s.begin, step_of_none hw he⟩
  | some e =>
    rw [step_of_event hw he]
    exact stepEvent_total (State.inv_begin.2 hi) e

end Sys2Proof.Machine
end

section
/-! PROOFS of the family 'other', runs of the block: bytes it loses (rule R117), a request it takes in (rules R78, R161), and a
reply it sends (rules R134, R165, R171, R244). -/

namespace Sys2Proof.Machine

/-! ### Events that change nothing -/

/-- The block in state `s` takes event `e` without any effect, whatever stands behind it in the queue. -/
def State.Ignores (s : State) (e : Event) : Prop :=
  ∀ queue, stepEvent e { s with pending := queue, out := Output.silent } =
    .next { s with pending := queue, out := Output.silent }

/-- Events without effect only leave the queue. -/
theorem State.after_ignored {s : State} (hw : s.cfg.wf) {e : Event} {es rest : List Event}
    (hp : s.pending = e :: (es ++ rest)) (ignored : ∀ e' ∈ e :: es, s.Ignores e') :
    s.after (e :: es).length = .next { s with pending := rest, out := Output.silent } := by
  induction es generalizing s e with
  | nil =>
    have first : step s = .next { s with pending := rest, out := Output.silent } := by
      rw [step_of_event hw (State.nextEvent_cons hp), State.begin, hp]
      exact ignored e List.mem_cons_self rest
    exact State.after_succ first 0
  | cons e' es ih =>
    have first : step s = .next { s with pending := e' :: (es ++ rest), out := Output.silent } := by
      rw [step_of_event hw (State.nextEvent_cons hp), State.begin, hp]
      exact ignored e List.mem_cons_self _
    rw [List.length_cons, State.after_succ first]
    exact ih (s := { s with pending := e' :: (es ++ rest), out := Output.silent }) hw rfl
      fun e'' he => ignored e'' (List.mem_cons_of_mem e he)

/-- Outside `WaitingForFrame` a received byte has no effect (rule R117). -/
theorem State.ignores_rxByte {s : State} (hc : s.ctl ≠ .waitingForFrame) (b : Byte) : s.Ignores (.rxByte b) := by
  intro queue
  rw [stepEvent_rxByte]
  exact if_neg hc

/-- Settles O13: every one of the bytes is ignored. -/
theorem bytesToBusyBlockAreLost : Obligations.BytesToBusyBlockAreLost := by
  unfold Obligations.BytesToBusyBlockAreLost
  intro s bytes rest hw hc nonempty hp
  obtain ⟨b, bs, rfl⟩ := List.exists_cons_of_ne_nil nonempty
  have lost := State.after_ignored hw (e := .rxByte b) (es := bs.map Event.rxByte) hp fun e he => by
    obtain ⟨b', _, rfl⟩ := List.mem_map.1 (List.map_cons ▸ he : e ∈ (b :: bs).map Event.rxByte)
    exact State.ignores_rxByte hc b'
  rwa [List.length_cons, List.length_map] at lost

/-! ### Taking a request in -/

/-- A byte that completes no record moves the decoder alone (rules R100, R207). -/
theorem step_rxByte_silent {s : State} {b : Byte} {queue : List Event} {rx' : Rx} {r : RxResult} (hw : s.cfg.wf)
    (hc : s.ctl = .waitingForFrame) (hp : s.pending = .rxByte b :: queue) (hstep : s.rx.step s.cfg b = some (rx', r))
    (silent : ∀ t, r ≠ .frameOk t) :
    step s = .next { s with rx := rx', pending := queue, out := Output.ofRx r } := by
  rw [State.takes_rxByte hc hstep hw queue hp, State.handOff_of_no_frame s (rx', r) silent]
  rfl

/-- The state of a block of state `s` that has accepted command `c` with payload `p` (rule R161). -/
def State.requested (s : State) (rx' : Rx) (c : Byte) (p : Payload) (queue : List Event) : State :=
  { s with
    rx := rx'
    reqCmd := c
    reqPayload := p
    ctl := .dispatching
    pending := queue
    out := Output.ofRx (.frameOk ⟨s.cfg.myAddr, c, p⟩) }

/-- The byte that completes a frame for this board accepts it (rule R161). -/
theorem step_rxByte_mine {s : State} {b c : Byte} {p : Payload} {queue : List Event} {rx' : Rx} (hw : s.cfg.wf)
    (hc : s.ctl = .waitingForFrame) (hp : s.pending = .rxByte b :: queue)
    (hstep : s.rx.step s.cfg b = some (rx', .frameOk ⟨s.cfg.myAddr, c, p⟩)) :
    step s = .next (s.requested rx' c p queue) := by
  rw [State.takes_rxByte hc hstep hw queue hp, State.handOff_mine s rx' _ rfl]
  rfl

/-- Bytes that complete no record move the decoder alone, and nothing is sent (rules R100, R166). -/
theorem State.after_silent_bytes (bytes : List Byte) {s : State} {rest : List Event} {rx' : Rx} {rs : List RxResult}
    (hw : s.cfg.wf) (hc : s.ctl = .waitingForFrame) (hp : s.pending = bytes.map Event.rxByte ++ rest)
    (run : s.rx.run s.cfg bytes = some (rx', rs)) (silent : NoRecord rs) :
    ∃ out, s.after bytes.length = .next { s with rx := rx', pending := rest, out := out } ∧ s.emits bytes.length = [] := by
  induction bytes generalizing s rs with
  | nil =>
    cases run
    cases hp
    exact ⟨s.out, rfl, rfl⟩
  | cons b bs ih =>
    obtain ⟨mid, r, rs', hstep, hrun, rfl⟩ := Rx.run_cons_eq_some run
    obtain ⟨first, later⟩ := List.forall_mem_cons.1 silent
    have next := step_rxByte_silent (queue := bs.map Event.rxByte ++ rest) hw hc hp hstep first
    obtain ⟨out, after, emits⟩ :=
      ih (s := { s with rx := mid, pending := bs.map Event.rxByte ++ rest, out := Output.ofRx r }) hw hc rfl hrun later
    refine ⟨out, ?_, ?_⟩
    · rw [List.length_cons, State.after_succ next, after]
    · rw [List.length_cons, State.emits_succ next, emits]
      rfl

/-- The last byte of a frame is its `END` (rule R67). -/
theorem Transaction.frame_eq_concat (cfg : Config) (t : Transaction) :
    t.frame cfg =
      (cfg.start :: (body t.addr t.cmd t.payload).flatMap (stuff cfg) ++ [checksum t.addr t.cmd t.payload]) ++
        [cfg.stop] := by
  rw [Transaction.frame_eq, frameRest, List.append_assoc]
  rfl

/-- A whole frame, its `END` apart: no record before it, and the record with it (rules R110, R118). -/
theorem Rx.run_frame_split {cfg : Config} (hw : cfg.wf) {rx : Rx} (ready : rx.Ready) (t : Transaction) :
    ∃ init mid rs rx', t.frame cfg = init ++ [cfg.stop] ∧ rx.run cfg init = some (mid, rs) ∧ NoRecord rs ∧
      mid.step cfg cfg.stop = some (rx', .frameOk t) ∧ rx'.state = .idle := by
  obtain ⟨rx', rs, hi, run, silent⟩ := Rx.run_frame_of_ready hw ready t
  rw [Transaction.frame_eq_concat] at run
  obtain ⟨mid, rs', r, first, last, results⟩ := Rx.run_concat_eq_some run
  obtain ⟨rfl, same⟩ := List.append_inj' results rfl
  cases same
  exact ⟨_, mid, rs, rx', Transaction.frame_eq_concat cfg t, first, silent, last, hi⟩

/-- A whole request for this board is accepted, and nothing is sent meanwhile (rules R78, R161, R166). -/
theorem State.after_request {s : State} {c : Byte} {p : Payload} {rest : List Event} (hw : s.cfg.wf)
    (hc : s.ctl = .waitingForFrame) (hi : s.rx.state = .idle)
    (hp : s.pending = (encode s.cfg s.cfg.myAddr c p).map Event.rxByte ++ rest) :
    ∃ rx', rx'.state = .idle ∧
      s.after (encode s.cfg s.cfg.myAddr c p).length = .next (s.requested rx' c p rest) ∧
      s.emits (encode s.cfg s.cfg.myAddr c p).length = [] := by
  obtain ⟨init, mid, rs, rx', split, run, silent, last, hi'⟩ :=
    Rx.run_frame_split hw (Rx.ready_of_idle hi) ⟨s.cfg.myAddr, c, p⟩
  rw [Transaction.frame] at split
  rw [split, List.map_append, List.append_assoc] at hp
  obtain ⟨out, after, emits⟩ := State.after_silent_bytes init hw hc hp run silent
  obtain ⟨emitsAll, afterAll⟩ := State.after_add init.length 1 after
  have accepted := step_rxByte_mine (s := { s with rx := mid, pending := .rxByte s.cfg.stop :: rest, out := out })
    hw hc rfl last
  rw [split, List.length_append, List.length_singleton]
  refine ⟨rx', hi', ?_, ?_⟩
  · rw [afterAll]
    exact State.after_succ accepted 0
  · rw [emitsAll, emits]
    exact State.emits_succ accepted 0

/-- Settles O36: the bytes up to `END` are silent, and the `END` accepts. -/
theorem wholeRequestIsAccepted : Obligations.WholeRequestIsAccepted := by
  unfold Obligations.WholeRequestIsAccepted
  intro s c p rest hw hc hi hp
  obtain ⟨rx', hi', after, _⟩ := State.after_request hw hc hi hp
  exact ⟨rx', hi', after⟩

/-! ### Sending a reply -/

/-- The outputs of one more step, as bytes. -/
theorem toList_append_filterMap_tx (o : Output) (outs : List Output) :
    o.tx.toList ++ outs.filterMap Output.tx = (o :: outs).filterMap Output.tx := by
  cases h : o.tx <;> simp [h]

/-- A settling run is a run of the machine, and its outputs hold the bytes the run emits. -/
theorem State.after_of_settleIn (n : Nat) {s t : State} {outs : List Output} (h : s.settleIn n = (.next t, outs)) :
    s.after outs.length = .next t ∧ s.emits outs.length = outs.filterMap Output.tx := by
  induction n generalizing s outs with
  | zero =>
    cases h
    exact ⟨rfl, rfl⟩
  | succ n ih =>
    by_cases he : s.nextEvent = none
    · rw [State.settleIn_none he] at h
      cases h
      exact ⟨rfl, rfl⟩
    · rw [State.settleIn, if_neg he] at h
      obtain ⟨u, first, others, hstep, hrest, rfl⟩ := Run.andThen_eq_next h
      cases hs : step s with
      | next v =>
        rw [State.stepRun_next hs] at hstep
        cases hstep
        obtain ⟨after, emits⟩ := ih hrest
        rw [List.singleton_append, List.length_cons, State.after_succ hs, State.emits_succ hs, after, emits,
          toList_append_filterMap_tx]
        exact ⟨rfl, rfl⟩
      | fault x => simp [State.stepRun, hs] at hstep
      | refused x => simp [State.stepRun, hs] at hstep

/-- What is left of a list tells its next element, what is left after that, and its length. -/
theorem drop_eq_cons {l : List Byte} {i : Nat} {b : Byte} {tail : List Byte} (h : l.drop i = b :: tail) :
    l[i]? = some b ∧ l.drop (i + 1) = tail ∧ l.length = i + 1 + tail.length := by
  have length := congrArg List.length h
  rw [List.length_drop, List.length_cons] at length
  refine ⟨?_, ?_, by omega⟩
  · rw [← List.head?_drop, h]
    rfl
  · rw [← List.tail_drop, h]
    rfl

/-- With an empty queue the taking of an event only clears the outputs (logs 7, 8). -/
theorem State.begin_of_empty {s : State} (hp : s.pending = []) : s.begin = { s with out := Output.silent } := by
  rw [State.begin, hp]
  rfl

/-- In `Replying` with nothing queued the next step is `TxByte` (rules R132, R245). -/
theorem step_txByte {s : State} {b : Byte} (hw : s.cfg.wf) (hc : s.ctl = .replying) (hp : s.pending = [])
    (hb : s.txBuf[s.txIdx]? = some b) :
    s.nextEvent = some .txByte ∧ step s = .next (State.sendByte { s with out := Output.silent } b) := by
  have next : s.nextEvent = some .txByte := by rw [State.nextEvent_nil hp, hc]
  rw [step_of_event hw next, stepEvent_txByte, State.begin_of_empty hp]
  exact ⟨next, txByte_of_replying hc hb⟩

/-- In `Dispatching` with nothing queued the next step is `Dispatch` (rules R146, R245). -/
theorem step_dispatch {s : State} (hw : s.cfg.wf) (hc : s.ctl = .dispatching) (hp : s.pending = []) :
    s.nextEvent = some .dispatch ∧
      step s = .next (s.answered s.reqCmd (s.selected s.reqCmd s.reqPayload)) := by
  have next : s.nextEvent = some .dispatch := by rw [State.nextEvent_nil hp, hc]
  rw [step_of_event hw next, stepEvent_dispatch, State.begin_ctl, if_pos hc, State.dispatch_eq_answered,
    State.begin_of_empty hp]
  exact ⟨next, rfl⟩

/-- Left to itself, a block that is replying sends the bytes that are left, and waits again (rules R132, R133, R171). -/
theorem State.settleIn_replying (bs : List Byte) {z : Byte} {s : State} (hw : s.cfg.wf) (hc : s.ctl = .replying)
    (hp : s.pending = []) (length : s.txLen = s.txBuf.length) (left : s.txBuf.drop s.txIdx = bs ++ [z]) {n : Nat}
    (hn : bs.length < n) :
    s.settleIn n = (.next { s with ctl := .waitingForFrame, txIdx := s.txLen, out := Output.ofTx z },
      (bs ++ [z]).map Output.ofTx) := by
  obtain ⟨n, rfl⟩ := Nat.exists_eq_succ_of_ne_zero (Nat.ne_zero_of_lt hn)
  induction bs generalizing s n with
  | nil =>
    obtain ⟨hb, _, count⟩ := drop_eq_cons left
    obtain ⟨next, sent⟩ := step_txByte hw hc hp hb
    have last : step s = .next { s with ctl := .waitingForFrame, txIdx := s.txLen, out := Output.ofTx z } :=
      sent.trans (congrArg _ (State.sendByte_last (s := { s with out := Output.silent }) (count.symm.trans length.symm) z))
    have settled := State.settleIn_none (s := { s with ctl := .waitingForFrame, txIdx := s.txLen, out := Output.ofTx z })
      (State.nextEvent_eq_none.2 ⟨.inl rfl, hp⟩) n
    rw [State.settleIn_step next last, settled]
    rfl
  | cons b bs ih =>
    rw [List.cons_append] at left
    obtain ⟨hb, left', count⟩ := drop_eq_cons left
    obtain ⟨next, sent⟩ := step_txByte hw hc hp hb
    rw [List.length_append, List.length_singleton] at count
    have notLast : s.txIdx + 1 ≠ s.txLen := by omega
    have more : step s = .next { s with txIdx := s.txIdx + 1, out := Output.ofTx b } :=
      sent.trans (congrArg _ (State.sendByte_more (s := { s with out := Output.silent }) notLast b))
    rw [List.length_cons] at hn
    obtain ⟨n, rfl⟩ := Nat.exists_eq_succ_of_ne_zero (by omega : n ≠ 0)
    have others := ih (s := { s with txIdx := s.txIdx + 1, out := Output.ofTx b }) hw hc hp length left' n (by omega)
    rw [State.settleIn_step next more, others]
    rfl

/-- The state of a block of state `s` that has answered command `c` with `r` to the last byte (rules R133, R146). -/
def State.replied (s : State) (c : Byte) (r : HandlerResult) : State :=
  { s.answered c r with
    ctl := .waitingForFrame
    txIdx := (encode s.cfg s.cfg.myAddr c r.resp).length
    out := Output.ofTx s.cfg.stop }

/-- Left to itself, a block that accepted a request answers it with one whole frame, and waits again (rules R146, R165). -/
theorem State.settleIn_dispatching {s : State} (hw : s.cfg.wf) (hc : s.ctl = .dispatching) (hp : s.pending = [])
    {r : HandlerResult} (selected : s.selected s.reqCmd s.reqPayload = r) {n : Nat} (hn : 15 < n) :
    s.settleIn n = (.next (s.replied s.reqCmd r),
      Output.ofOutcome r.outcome :: (encode s.cfg s.cfg.myAddr s.reqCmd r.resp).map Output.ofTx) := by
  obtain ⟨n, rfl⟩ := Nat.exists_eq_succ_of_ne_zero (Nat.ne_zero_of_lt hn)
  obtain ⟨next, answers⟩ := step_dispatch hw hc hp
  obtain ⟨_, most⟩ := length_encode_bounds s.cfg s.cfg.myAddr s.reqCmd r.resp
  have split : encode s.cfg s.cfg.myAddr s.reqCmd r.resp = _ ++ [s.cfg.stop] :=
    Transaction.frame_eq_concat s.cfg ⟨s.cfg.myAddr, s.reqCmd, r.resp⟩
  have room := congrArg List.length split
  rw [List.length_append, List.length_singleton] at room
  have reply := State.settleIn_replying _ (s := s.answered s.reqCmd r) hw rfl hp rfl split (n := n) (by omega)
  rw [selected] at answers
  rw [State.settleIn_step next answers, reply, ← split]
  rfl

/-- The same as steps of the machine: one `Dispatch`, and one `TxByte` for each byte of the reply. -/
theorem State.after_dispatching {s : State} (hw : s.cfg.wf) (hc : s.ctl = .dispatching) (hp : s.pending = [])
    {r : HandlerResult} (selected : s.selected s.reqCmd s.reqPayload = r) {reply : List Byte}
    (hreply : encode s.cfg s.cfg.myAddr s.reqCmd r.resp = reply) :
    s.emits (1 + reply.length) = reply ∧
    s.after (1 + reply.length) = .next (s.replied s.reqCmd r) := by
  subst hreply
  obtain ⟨after, emits⟩ := State.after_of_settleIn 16 (State.settleIn_dispatching hw hc hp selected (by decide))
  rw [List.length_cons, List.length_map, Nat.add_comm] at after emits
  rw [List.filterMap_cons_none rfl, List.filterMap_map] at emits
  exact ⟨emits.trans List.filterMap_some, after⟩

/-- Settles O35: the invariant is not even needed. -/
theorem acceptedRequestIsAnswered : Obligations.AcceptedRequestIsAnswered := by
  unfold Obligations.AcceptedRequestIsAnswered
  intro s hw _ hc hp r reply
  exact State.after_dispatching hw hc hp rfl rfl

/-! ### A reply among other events -/

/-- A step in `Replying`, no `Reset` at hand: another event is taken and only the board may change, or a byte is sent. -/
theorem step_replying {s : State} (hw : s.cfg.wf) (hi : s.Inv) (hc : s.ctl = .replying)
    (noReset : Event.reset ∉ s.pending) :
    ∃ t, step s = .next t ∧ ((s.pending ≠ [] ∧ ∃ board, t = { s.begin with board := board }) ∨
      ∃ b, s.txBuf[s.txIdx]? = some b ∧ t = s.begin.sendByte b) := by
  obtain ⟨t, h⟩ := invariantStatesNeverStop s hw hi
  refine ⟨t, h, ?_⟩
  obtain ⟨_, ⟨none, _⟩ | ⟨e, next, effect⟩⟩ := step_next h
  · obtain ⟨waits, _⟩ := State.nextEvent_eq_none.1 none
    simp [hc] at waits
  cases hp : s.pending with
  | nil =>
    rw [State.nextEvent_nil hp, hc] at next
    cases next
    rcases effect.of_replying hc (by simp) with ⟨other, _⟩ | ⟨_, sent⟩
    · exact absurd rfl other
    · exact .inr sent
  | cons e' es =>
    rw [State.nextEvent_cons hp] at next
    cases next
    have notReset : e ≠ .reset := fun he => noReset (hp ▸ he ▸ List.mem_cons_self)
    rcases effect.of_replying hc notReset with ⟨_, kept⟩ | ⟨_, sent⟩
    · exact .inl ⟨by simp, kept⟩
    · exact .inr sent

/-- The events and bytes that are left bound the steps in which the reply is sent (rules R134, R171). -/
theorem State.after_replying (m : Nat) {s : State} (hw : s.cfg.wf) (hi : s.Inv) (hc : s.ctl = .replying)
    (noReset : Event.reset ∉ s.pending) (hm : s.pending.length + (s.txLen - s.txIdx) ≤ m) :
    ∃ n t, n ≤ m ∧ s.after n = .next t ∧ t.ctl = .waitingForFrame ∧ s.emits n = s.txBuf.drop s.txIdx := by
  have inside := hi.txIdx_lt hc
  induction m generalizing s with
  | zero => omega
  | succ m ih =>
    obtain ⟨t, h, possible⟩ := step_replying hw hi hc noReset
    have hit : t.Inv := everyStepKeepsInvariant s t hi h
    have noReset' : Event.reset ∉ s.pending.tail := fun hr => noReset (List.mem_of_mem_tail hr)
    have queue : s.pending.tail.length = s.pending.length - 1 := List.length_tail
    rcases possible with ⟨queued, board, rfl⟩ | ⟨b, hb, rfl⟩
    · have taken := List.length_pos_iff.2 queued
      have less : s.pending.tail.length + (s.txLen - s.txIdx) ≤ m := by omega
      obtain ⟨n, t, hn, after, waits, emits⟩ := ih (s := { s.begin with board := board }) hw hit hc noReset' less inside
      refine ⟨n + 1, t, Nat.succ_le_succ hn, (State.after_succ h n).trans after, waits, ?_⟩
      rw [State.emits_succ h, emits]
      rfl
    · obtain ⟨found, hb⟩ := List.getElem?_eq_some_iff.1 hb
      have left : s.txBuf.drop s.txIdx = b :: s.txBuf.drop (s.txIdx + 1) := by rw [List.drop_eq_getElem_cons found, hb]
      by_cases last : s.txIdx + 1 = s.txLen
      · have none : s.txBuf.drop (s.txIdx + 1) = [] := List.drop_of_length_le (by rw [last, hi.txLen])
        refine ⟨1, s.begin.sendByte b, Nat.succ_le_succ m.zero_le, State.after_succ h 0, if_pos last, ?_⟩
        rw [State.emits_succ h, left, none]
        rfl
      · have goesOn : (s.begin.sendByte b).ctl = .replying := (if_neg last).trans hc
        have less : s.pending.tail.length + (s.txLen - (s.txIdx + 1)) ≤ m := by omega
        obtain ⟨n, t, hn, after, waits, emits⟩ :=
          ih (s := s.begin.sendByte b) hw hit goesOn noReset' less (hit.txIdx_lt goesOn)
        refine ⟨n + 1, t, Nat.succ_le_succ hn, (State.after_succ h n).trans after, waits, ?_⟩
        rw [State.emits_succ h, emits, left]
        rfl

/-- Settles O37: every step takes an event from the queue or a byte from the reply. -/
theorem replyIsFinishedUnderAnySchedule : Obligations.ReplyIsFinishedUnderAnySchedule := by
  unfold Obligations.ReplyIsFinishedUnderAnySchedule
  intro s hw hi hc noReset
  exact State.after_replying _ hw hi hc noReset (Nat.le_refl _)

/-! ### A whole transaction -/

/-- Settles O38: the request is taken in, and the settling run answers it. -/
theorem transactionIsCounted : Obligations.TransactionIsCounted := by
  unfold Obligations.TransactionIsCounted
  intro s c p hw _ hc hi hp r reply n
  obtain ⟨leastRequest, mostRequest⟩ := length_encode_bounds s.cfg s.cfg.myAddr c p
  obtain ⟨leastReply, mostReply⟩ := length_encode_bounds s.cfg s.cfg.myAddr c r.resp
  obtain ⟨rx', _, accepted, silent⟩ := State.after_request (rest := []) hw hc hi (by rw [hp, List.append_nil])
  obtain ⟨emits, after⟩ := State.after_add _ (1 + reply.length) accepted
  obtain ⟨answer, waits⟩ :=
    State.after_dispatching (s := s.requested rx' c p []) (r := r) (reply := reply) hw rfl rfl rfl rfl
  have steps : n = (encode s.cfg s.cfg.myAddr c p).length + (1 + reply.length) := Nat.add_assoc _ 1 _
  have replyLength : reply.length = (encode s.cfg s.cfg.myAddr c r.resp).length := rfl
  rw [steps]
  refine ⟨by omega, by omega, ?_, _, after.trans waits, rfl, rfl, rfl⟩
  rw [emits, silent, answer]
  rfl

end Sys2Proof.Machine
end

section
/-! PROOFS of the family 'other', the boot sequence (rule R233): `Reset`, the registrations one by one, `Start`. -/

namespace Sys2Proof.Machine

/-! ### The table that registrations leave -/

/-- The table after binding the entries of a list one after the other (rule R140). -/
def DispatchTable.bindAll (reg : List (Byte × HandlerRef)) (t : DispatchTable) : DispatchTable :=
  reg.foldl (fun t r => DispatchTable.bind r.1 r.2 t) t

theorem DispatchTable.wf_bindAll (reg : List (Byte × HandlerRef)) {t : DispatchTable} (ht : DispatchTable.wf t) :
    DispatchTable.wf (DispatchTable.bindAll reg t) := by
  induction reg generalizing t with
  | nil => exact ht
  | cons r reg ih => exact ih (DispatchTable.wf_bind r.1 r.2 ht)

/-- An id the list does not hold keeps its entry. -/
theorem DispatchTable.find_bindAll_of_not_mem {reg : List (Byte × HandlerRef)} {c : Byte} (hc : c ∉ reg.map Prod.fst)
    (t : DispatchTable) : DispatchTable.find (DispatchTable.bindAll reg t) c = DispatchTable.find t c := by
  induction reg generalizing t with
  | nil => rfl
  | cons r reg ih =>
    rw [List.map_cons] at hc
    have kept := ih (List.not_mem_of_not_mem_cons hc) (DispatchTable.bind r.1 r.2 t)
    rw [DispatchTable.find_bind, if_neg (List.ne_of_not_mem_cons hc)] at kept
    exact kept

/-- With pairwise different ids every row of the list is bound. -/
theorem DispatchTable.find_bindAll_of_mem {reg : List (Byte × HandlerRef)} (distinct : (reg.map Prod.fst).Nodup)
    {c : Byte} {h : HandlerRef} (hm : (c, h) ∈ reg) (t : DispatchTable) :
    DispatchTable.find (DispatchTable.bindAll reg t) c = some h := by
  induction reg generalizing t with
  | nil => simp at hm
  | cons r reg ih =>
    rw [List.map_cons, List.nodup_cons] at distinct
    rcases List.mem_cons.1 hm with rfl | hm
    · have bound := DispatchTable.find_bindAll_of_not_mem distinct.1 (DispatchTable.bind c h t)
      rw [DispatchTable.find_bind, if_pos rfl] at bound
      exact bound
    · exact ih distinct.2 hm _

/-- Of a list with pairwise different ids the table holds exactly the rows (rules R140, R233). -/
theorem DispatchTable.find_bindAll_iff {reg : List (Byte × HandlerRef)} (distinct : (reg.map Prod.fst).Nodup) (c : Byte)
    (h : HandlerRef) : DispatchTable.find (DispatchTable.bindAll reg []) c = some h ↔ (c, h) ∈ reg := by
  refine ⟨fun bound => ?_, fun hm => DispatchTable.find_bindAll_of_mem distinct hm []⟩
  by_cases hc : c ∈ reg.map Prod.fst
  · obtain ⟨⟨c', g⟩, hm, rfl⟩ := List.mem_map.1 hc
    have same := (DispatchTable.find_bindAll_of_mem distinct hm []).symm.trans bound
    cases same
    exact hm
  · rw [DispatchTable.find_bindAll_of_not_mem hc] at bound
    cases bound

/-- Its bound ids are the ids of the list. -/
theorem DispatchTable.find_bindAll_ne_none {reg : List (Byte × HandlerRef)} (distinct : (reg.map Prod.fst).Nodup)
    (c : Byte) : DispatchTable.find (DispatchTable.bindAll reg []) c ≠ none ↔ c ∈ reg.map Prod.fst := by
  simp only [Option.ne_none_iff_exists', DispatchTable.find_bindAll_iff distinct, List.mem_map, Prod.exists,
    exists_and_right, exists_eq_right]

/-! ### The steps of the boot sequence -/

/-- A registration of a free id (rule R140). -/
theorem step_register_free {s : State} {id : Byte} {h : HandlerRef} {queue : List Event} (hw : s.cfg.wf)
    (hc : s.ctl = .registering) (hp : s.pending = .register id h :: queue) (free : DispatchTable.find s.dt id = none) :
    step s = .next { s with dt := DispatchTable.bind id h s.dt, pending := queue, out := Output.silent } := by
  rw [registerBindsOrHalts s id h hw queue hp, if_pos hc, if_pos free]

/-- A registration of an id that is bound (rule R141). -/
theorem step_register_bound {s : State} {id : Byte} {h : HandlerRef} {queue : List Event} (hw : s.cfg.wf)
    (hc : s.ctl = .registering) (hp : s.pending = .register id h :: queue) (bound : DispatchTable.find s.dt id ≠ none) :
    step s = .next { s with
      bootErr := some .duplicateCommand
      ctl := .halted
      pending := queue
      out := Output.silent } := by
  rw [registerBindsOrHalts s id h hw queue hp, if_pos hc, if_neg bound]

/-- Registrations of pairwise different free ids. -/
theorem State.after_registers (reg : List (Byte × HandlerRef)) {s : State} {rest : List Event} (hw : s.cfg.wf)
    (hc : s.ctl = .registering) (hout : s.out = Output.silent)
    (hp : s.pending = reg.map (fun r => Event.register r.1 r.2) ++ rest) (distinct : (reg.map Prod.fst).Nodup)
    (free : ∀ c ∈ reg.map Prod.fst, DispatchTable.find s.dt c = none) :
    s.after reg.length = .next { s with dt := DispatchTable.bindAll reg s.dt, pending := rest } := by
  induction reg generalizing s with
  | nil =>
    cases hp
    rfl
  | cons r reg ih =>
    rw [List.map_cons, List.nodup_cons] at distinct
    rw [List.map_cons, List.forall_mem_cons] at free
    have first := step_register_free (queue := reg.map (fun r => Event.register r.1 r.2) ++ rest) hw hc hp free.1
    have others := ih (s := { s with
      dt := DispatchTable.bind r.1 r.2 s.dt
      pending := reg.map (fun r => Event.register r.1 r.2) ++ rest
      out := Output.silent }) hw hc rfl rfl distinct.2 fun c hm => by
        have other : c ≠ r.1 := fun same => distinct.1 (same ▸ hm)
        rw [DispatchTable.find_bind, if_neg other, free.2 c hm]
    rw [List.length_cons, State.after_succ first, others, ← hout]
    rfl

/-- `Reset` and the registrations of pairwise different ids. -/
theorem State.after_reset_registers {s : State} {reg : List (Byte × HandlerRef)} {rest : List Event} (hw : s.cfg.wf)
    (hp : s.pending = .reset :: (reg.map (fun r => Event.register r.1 r.2) ++ rest))
    (distinct : (reg.map Prod.fst).Nodup) :
    s.after (reg.length + 1) =
      .next { State.resetOf s.cfg rest with dt := DispatchTable.bindAll reg [] } := by
  have first : step s = .next (State.resetOf s.cfg (reg.map (fun r => Event.register r.1 r.2) ++ rest)) :=
    resetRestoresEverything s hw _ hp
  rw [State.after_succ first]
  exact State.after_registers reg hw rfl rfl rfl distinct fun _ _ => rfl

/-- Settles O44: the last step is `Start`, and the table is that of the list. -/
theorem bootWithDistinctIds : Obligations.BootWithDistinctIds := by
  unfold Obligations.BootWithDistinctIds
  intro s reg rest hw hp distinct
  refine ⟨DispatchTable.bindAll reg [], DispatchTable.wf_bindAll reg List.Pairwise.nil,
    DispatchTable.find_bindAll_iff distinct, ?_⟩
  rw [bootEvents, List.cons_append, List.append_assoc, List.singleton_append] at hp
  have registered := State.after_reset_registers hw hp distinct
  have started := startRequiresSafeHandler
    { State.resetOf s.cfg (.start :: rest) with dt := DispatchTable.bindAll reg [] } hw rest rfl
  rw [(State.after_add (reg.length + 1) 1 registered).2, State.after_succ started]
  simp only [DispatchTable.find_bindAll_ne_none distinct, State.resetOf_ctl, if_true]
  by_cases safe : (255 : Byte) ∈ reg.map Prod.fst
  · rw [if_pos safe, if_pos safe]
    rfl
  · rw [if_neg safe, if_neg safe]
    rfl

/-- Events without effect only leave the queue, and the outputs stay empty. -/
theorem State.after_ignored_silent {s : State} (hw : s.cfg.wf) (hout : s.out = Output.silent) {events rest : List Event}
    (hp : s.pending = events ++ rest) (ignored : ∀ e ∈ events, s.Ignores e) :
    s.after events.length = .next { s with pending := rest } := by
  cases events with
  | nil =>
    cases hp
    rfl
  | cons e es =>
    rw [State.after_ignored hw hp ignored, ← hout]

/-- After the boot phase a registration has no effect (rule R142). -/
theorem State.ignores_register {s : State} (hc : s.ctl ≠ .registering) (id : Byte) (h : HandlerRef) :
    s.Ignores (.register id h) := by
  intro queue
  rw [stepEvent_register, register_late]
  exact hc

/-- After the boot phase `Start` has no effect (rule R143). -/
theorem State.ignores_start {s : State} (hc : s.ctl ≠ .registering) : s.Ignores .start := by
  intro queue
  rw [stepEvent_start, start_late]
  exact hc

/-- Settles O45: the repeated id halts the block, and `Halted` ignores the rest. -/
theorem bootWithDuplicateId : Obligations.BootWithDuplicateId := by
  unfold Obligations.BootWithDuplicateId
  intro s before later r rest hw hp distinct repeated
  refine ⟨DispatchTable.bindAll before [], DispatchTable.wf_bindAll before List.Pairwise.nil,
    DispatchTable.find_bindAll_iff distinct, ?_⟩
  have queue : s.pending = .reset :: (before.map (fun r => Event.register r.1 r.2) ++
      .register r.1 r.2 :: (later.map (fun r => Event.register r.1 r.2) ++ [.start] ++ rest)) := by
    rw [hp]
    simp only [bootEvents, List.map_append, List.map_cons, List.cons_append, List.append_assoc]
  have registered := State.after_reset_registers hw queue distinct
  have halts := step_register_bound
    (s := { State.resetOf s.cfg (.register r.1 r.2 :: (later.map (fun r => Event.register r.1 r.2) ++ [.start] ++ rest)) with
      dt := DispatchTable.bindAll before [] })
    hw rfl rfl ((DispatchTable.find_bindAll_ne_none distinct r.1).2 repeated)
  have ignored := State.after_ignored_silent (rest := rest)
    (s := { State.resetOf s.cfg (later.map (fun r => Event.register r.1 r.2) ++ [.start] ++ rest) with
      ctl := .halted
      bootErr := some .duplicateCommand
      dt := DispatchTable.bindAll before [] })
    (events := later.map (fun r => Event.register r.1 r.2) ++ [.start]) hw rfl rfl fun e he => by
      rcases List.mem_append.1 he with he | he
      · obtain ⟨q, _, rfl⟩ := List.mem_map.1 he
        exact State.ignores_register (by simp) q.1 q.2
      · rw [List.mem_singleton.1 he]
        exact State.ignores_start (by simp)
  rw [List.length_append, List.length_map, List.length_singleton] at ignored
  have steps : (before ++ r :: later).length + 2 = (before.length + 1) + ((later.length + 1) + 1) := by
    rw [List.length_append, List.length_cons]
    omega
  rw [steps, (State.after_add (before.length + 1) _ registered).2]
  exact (State.after_succ halts _).trans ignored

end Sys2Proof.Machine
end

section
/-! PROOFS of the family 'other', the master's call (rules R181 to R190): the first matching frame answers it, and without one it
fails. -/

namespace Sys2Proof.Machine

/-- What a call comes to, address 0 apart (rules R181, R182). -/
theorem call_eq_ite (cfg : Config) (rx : Rx) (a c : Byte) (p : Payload) (heard : List Heard) :
    call cfg rx a c p heard = if a = 0 then none else some (encode cfg a c p, callResult cfg rx a c heard) := by
  by_cases zero : a = 0
  · rw [call, callRequest, if_pos zero, if_pos zero]
    rfl
  · rw [call, callRequest, if_neg zero, if_neg zero]
    rfl

/-- A byte that completes a matching frame is the answer, whatever follows (rules R184, R190). -/
theorem firstAnswer_of_match {cfg : Config} {rx rx' : Rx} {b : Byte} {t : Transaction}
    (h : rx.step cfg b = some (rx', .frameOk t)) (later : List Heard) :
    firstAnswer cfg t.addr t.cmd rx (.byte b :: later) = some t.payload := by
  have answers : t.answers t.addr t.cmd = true := by simp [Transaction.answers]
  simp only [firstAnswer, Rx.hear_byte, h, Option.map_some, answers, if_true]

/-- A whole matching frame is the answer wherever its `START` opens a frame (rules R118, R184). -/
theorem firstAnswer_frame {cfg : Config} (hw : cfg.wf) {rx : Rx} (ready : rx.Ready) (t : Transaction) (later : List Heard) :
    firstAnswer cfg t.addr t.cmd rx ((t.frame cfg).map Heard.byte ++ later) = some t.payload := by
  obtain ⟨init, mid, rs, rx', split, run, silent, last, _⟩ := Rx.run_frame_split hw ready t
  have heard : rx.listen cfg (init.map Heard.byte) = some (mid, rs) := (Rx.listen_bytes cfg init rx).trans run
  rw [split, List.map_append, List.append_assoc,
    firstAnswer_append _ _ heard fun t' ht => absurd rfl (silent _ ht t')]
  exact firstAnswer_of_match last later

/-- Settles O58: nothing matched before, and the frame is accepted. -/
theorem callReturnsFirstMatchingPayload : Obligations.CallReturnsFirstMatchingPayload := by
  unfold Obligations.CallReturnsFirstMatchingPayload
  intro cfg rx rx' rs earlier later a c p q hw heard noMatch ready
  have answer : firstAnswer cfg a c rx (earlier ++ (encode cfg a c p).map Heard.byte ++ later) = some p := by
    rw [List.append_assoc, firstAnswer_append _ _ heard noMatch]
    exact firstAnswer_frame hw ready ⟨a, c, p⟩ later
  rw [call_eq_ite, callResult, answer]

/-- Under rule R32 the master's decoder goes on over whatever it hears. -/
theorem Rx.listen_total {rx : Rx} (hi : rx.Inv) (cfg : Config) (heard : List Heard) :
    ∃ rx' rs, rx.listen cfg heard = some (rx', rs) := by
  induction heard generalizing rx with
  | nil => exact ⟨rx, [], rfl⟩
  | cons h hs ih =>
    obtain ⟨mid, r, hears, hmid⟩ := Rx.hear_inv hi cfg h
    obtain ⟨rx', rs, rest⟩ := ih hmid
    exact ⟨rx', _, by rw [Rx.listen_cons hears, rest]; rfl⟩

/-- Only timeouts were heard exactly when no byte came. -/
theorem all_timeout_iff (heard : List Heard) :
    heard.all (· == .timeout) = true ↔ ¬ ∃ b, Heard.byte b ∈ heard := by
  rw [List.all_eq_true, not_exists]
  constructor
  · intro timeouts b hb
    simpa using timeouts _ hb
  · intro noByte h hh
    cases h with
    | byte b => exact absurd hh (noByte b)
    | timeout => rfl

/-- Settles O59: the list that was heard holds no answer, and its bytes tell the two errors apart. -/
theorem callFailsWithoutMatch : Obligations.CallFailsWithoutMatch := by
  unfold Obligations.CallFailsWithoutMatch
  intro cfg rx heard a c q hi
  obtain ⟨rx', rs, listened⟩ := Rx.listen_total hi cfg heard
  refine ⟨rx', rs, listened, fun noMatch => ?_⟩
  have noAnswer : firstAnswer cfg a c rx heard = none := by
    rw [← List.append_nil heard, firstAnswer_append [] heard listened noMatch]
    rfl
  rw [call_eq_ite, callResult, noAnswer]
  by_cases came : ∃ b, Heard.byte b ∈ heard
  · rw [if_pos came]
    simp only [all_timeout_iff, not_not_intro came, if_false]
  · rw [if_neg came]
    simp only [all_timeout_iff, came, not_false_eq_true, if_true]

end Sys2Proof.Machine
end

section
/-! PROOFS of the family 'other', the eager schedule (rule R245): its runs end quiescent, they are schedules of the machine, and
requests that follow each other at once are each answered. -/

namespace Sys2Proof.Machine

/-! ### A run as a schedule -/

/-- Taking the events of `queue` leads from `s` to `t`, whatever stands behind them (log 7). -/
def State.Plays (s : State) (queue : List Event) (t : State) : Prop :=
  ∀ rest, State.after queue.length { s with pending := queue ++ rest } = .next { t with pending := rest }

theorem State.plays_nil (s : State) : s.Plays [] s := fun _ => rfl

theorem State.Plays.append {s t u : State} {q q' : List Event} (h : s.Plays q t) (h' : t.Plays q' u) :
    s.Plays (q ++ q') u := by
  intro rest
  have first := h (q' ++ rest)
  rw [List.length_append, List.append_assoc, (State.after_add q.length q'.length first).2]
  exact h' rest

/-- The step of an event, queued or the block's own, is the taking of that event (rules R168, R245). -/
theorem State.plays_step {s t : State} {e : Event} (hw : s.cfg.wf) (next : s.nextEvent = some e) (h : step s = .next t) :
    s.Plays [e] t := by
  intro rest
  rw [step_of_event hw next] at h
  have taken : step { s with pending := [e] ++ rest } = .next { t with pending := rest } :=
    (step_of_event (s := { s with pending := e :: rest }) hw rfl).trans (stepEvent_pending e s.begin t rest h)
  exact State.after_succ taken 0

/-- A step takes at most the head of the queue. -/
theorem step_pending {s t : State} (h : step s = .next t) : t.pending = s.pending.tail := by
  obtain ⟨_, ⟨_, rfl⟩ | ⟨e, _, effect⟩⟩ := step_next h
  · rfl
  · exact effect.pending

/-- What the runs of the eager schedule keep: from `s` a run has reached `t`, with as many outputs as `queue` has events, and
taking the events of `queue` leads there too. -/
structure Reaches (s : State) (outs : List Output) (queue : List Event) (t : State) : Prop where
  inv : t.Inv
  cfg : t.cfg = s.cfg
  empty : t.pending = []
  count : outs.length = queue.length
  plays : s.Plays queue t

theorem Reaches.append {s t u : State} {outs outs' : List Output} {q q' : List Event} (h : Reaches s outs q t)
    (h' : Reaches t outs' q' u) : Reaches s (outs ++ outs') (q ++ q') u :=
  ⟨h'.inv, h'.cfg.trans h.cfg, h'.empty, by rw [List.length_append, List.length_append, h.count, h'.count],
    h.plays.append h'.plays⟩

/-- One step with at most one event queued. -/
theorem reaches_step {s t : State} {e : Event} (hw : s.cfg.wf) (hi : s.Inv) (hp : s.pending.tail = [])
    (next : s.nextEvent = some e) (h : step s = .next t) : Reaches s [t.out] [e] t :=
  ⟨everyStepKeepsInvariant s t hi h, configurationNeverChanges s t h, (step_pending h).trans hp, rfl,
    State.plays_step hw next h⟩

/-- A settling run from an empty queue. -/
theorem reaches_of_settleIn (n : Nat) {s t : State} {outs : List Output} (hw : s.cfg.wf) (hi : s.Inv) (hp : s.pending = [])
    (h : s.settleIn n = (.next t, outs)) : ∃ queue, Reaches s outs queue t := by
  induction n generalizing s outs with
  | zero =>
    cases h
    exact ⟨[], hi, rfl, hp, rfl, State.plays_nil _⟩
  | succ n ih =>
    cases he : s.nextEvent with
    | none =>
      rw [State.settleIn_none he] at h
      cases h
      exact ⟨[], hi, rfl, hp, rfl, State.plays_nil _⟩
    | some e =>
      obtain ⟨u, hs⟩ := invariantStatesNeverStop s hw hi
      have first := reaches_step hw hi (by rw [hp]; rfl) he hs
      rw [State.settleIn_step he hs] at h
      obtain ⟨reached, rfl⟩ := Prod.mk.inj h
      obtain ⟨queue, others⟩ := ih (first.cfg ▸ hw) first.inv first.empty (Prod.ext reached rfl)
      exact ⟨[e] ++ queue, first.append others⟩

/-! ### Settling -/

/-- The budget is enough for the answer to an accepted request (rules R70, R171). -/
theorem State.settle_dispatching {s : State} (hw : s.cfg.wf) (hc : s.ctl = .dispatching) (hp : s.pending = [])
    {r : HandlerResult} (selected : s.selected s.reqCmd s.reqPayload = r) :
    s.settle = (.next (s.replied s.reqCmd r),
      Output.ofOutcome r.outcome :: (encode s.cfg s.cfg.myAddr s.reqCmd r.resp).map Output.ofTx) := by
  refine State.settleIn_dispatching hw hc hp selected ?_
  rw [State.budget]
  omega

/-- The budget is enough for the block to settle (rules R70, R171, R245). -/
theorem State.settle_quiescent {s : State} (hw : s.cfg.wf) (hi : s.Inv) (hp : s.pending = []) :
    ∃ t outs, s.settle = (.next t, outs) ∧ t.quiescent := by
  have waits : s.quiescent → ∃ t outs, s.settle = (.next t, outs) ∧ t.quiescent :=
    fun quiet => ⟨s, [], State.settle_none (State.nextEvent_eq_none.2 quiet), quiet⟩
  cases hc : s.ctl with
  | registering | waitingForFrame | halted => exact waits ⟨by simp [hc], hp⟩
  | dispatching =>
    exact ⟨_, _, State.settle_dispatching hw hc hp rfl, .inl rfl, hp⟩
  | replying =>
    have length := hi.txLen
    have inside := hi.txIdx_lt hc
    rcases List.eq_nil_or_concat (s.txBuf.drop s.txIdx) with sent | ⟨bs, z, left⟩
    · have all := List.drop_eq_nil_iff.1 sent
      omega
    · rw [List.concat_eq_append] at left
      have room := congrArg List.length left
      rw [List.length_drop, List.length_append, List.length_singleton] at room
      have enough : bs.length < s.budget := by
        rw [State.budget]
        omega
      exact ⟨_, _, State.settleIn_replying bs hw hc hp length left enough, .inl rfl, hp⟩

/-- Settling from an empty queue reaches a quiescent state. -/
theorem reaches_settle {s : State} (hw : s.cfg.wf) (hi : s.Inv) (hp : s.pending = []) :
    ∃ t outs queue, s.settle = (.next t, outs) ∧ t.quiescent ∧ Reaches s outs queue t := by
  obtain ⟨t, outs, settled, quiet⟩ := State.settle_quiescent hw hi hp
  obtain ⟨queue, reached⟩ := reaches_of_settleIn s.budget hw hi hp settled
  exact ⟨t, outs, queue, settled, quiet, reached⟩

/-- The eager run of any inputs from an empty queue reaches a quiescent state, every input taken in order. -/
theorem reaches_eagerRun (inputs : List Event) {s : State} (hw : s.cfg.wf) (hi : s.Inv) (hp : s.pending = []) :
    ∃ t outs queue, s.eagerRun inputs = (.next t, outs) ∧ t.quiescent ∧ inputs.Sublist queue ∧ Reaches s outs queue t := by
  induction inputs generalizing s with
  | nil =>
    obtain ⟨t, outs, queue, settled, quiet, reached⟩ := reaches_settle hw hi hp
    exact ⟨t, outs, queue, settled, quiet, List.nil_sublist queue, reached⟩
  | cons e es ih =>
    obtain ⟨t, outs, queue, settled, _, reached⟩ := reaches_settle hw hi hp
    have hwt : t.cfg.wf := reached.cfg ▸ hw
    obtain ⟨u, hs⟩ := invariantStatesNeverStop { t with pending := [e] } hwt reached.inv
    have input : Reaches t [u.out] [e] u := by
      have taken := reaches_step (s := { t with pending := [e] }) hwt reached.inv rfl rfl hs
      exact ⟨taken.inv, taken.cfg, taken.empty, taken.count, taken.plays⟩
    obtain ⟨v, outs', queue', others, quiet, inOrder, reached'⟩ := ih (input.cfg ▸ hwt) input.inv input.empty
    refine ⟨v, outs ++ ([u.out] ++ outs'), queue ++ ([e] ++ queue'), ?_, quiet,
      (inOrder.cons_cons e).trans (List.sublist_append_right queue _), reached.append (input.append reached')⟩
    rw [State.eagerRun, settled, Run.andThen_next, State.stepRun_next hs, Run.andThen_next, others]

/-! ### Requests without a gap -/

/-- A run with some outputs before its own. -/
def Run.withOutputs (outs : List Output) (r : Run) : Run := (r.1, outs ++ r.2)

theorem Run.withOutputs_append (outs outs' : List Output) (r : Run) :
    Run.withOutputs outs (Run.withOutputs outs' r) = Run.withOutputs (outs ++ outs') r := by
  simp only [Run.withOutputs, List.append_assoc]

/-- An input to a quiescent block is taken at once. -/
theorem State.eagerRun_cons {s u : State} {e : Event} (quiet : s.quiescent) (h : step { s with pending := [e] } = .next u)
    (es : List Event) : s.eagerRun (e :: es) = Run.withOutputs [u.out] (u.eagerRun es) := by
  rw [State.eagerRun, State.settle_none (State.nextEvent_eq_none.2 quiet), Run.andThen_next, State.stepRun_next h,
    Run.andThen_next]
  rfl

/-- The block settles before it takes the next input. -/
theorem State.eagerRun_of_settle {s t : State} {outs : List Output} (h : s.settle = (.next t, outs)) (quiet : t.quiescent)
    (inputs : List Event) : s.eagerRun inputs = Run.withOutputs outs (t.eagerRun inputs) := by
  have settled := State.settle_none (State.nextEvent_eq_none.2 quiet)
  cases inputs with
  | nil =>
    rw [State.eagerRun, State.eagerRun, h, settled, Run.withOutputs, List.append_nil]
  | cons e es =>
    rw [State.eagerRun, State.eagerRun, h, settled]
    rfl

/-- Bytes that complete no record move the decoder alone, and nothing is sent (rules R100, R166). -/
theorem State.eagerRun_silent_bytes (bytes : List Byte) {s : State} {rx' : Rx} {rs : List RxResult} (hw : s.cfg.wf)
    (hc : s.ctl = .waitingForFrame) (hp : s.pending = []) (run : s.rx.run s.cfg bytes = some (rx', rs))
    (silent : NoRecord rs) :
    ∃ out outs, outs.filterMap Output.tx = [] ∧ ∀ inputs,
      s.eagerRun (bytes.map Event.rxByte ++ inputs) =
        Run.withOutputs outs (State.eagerRun { s with rx := rx', out := out } inputs) := by
  induction bytes generalizing s rs with
  | nil =>
    cases run
    exact ⟨s.out, [], rfl, fun _ => rfl⟩
  | cons b bs ih =>
    obtain ⟨mid, r, rs', hstep, hrun, rfl⟩ := Rx.run_cons_eq_some run
    obtain ⟨first, later⟩ := List.forall_mem_cons.1 silent
    have next : step { s with pending := [.rxByte b] } = .next { s with rx := mid, out := Output.ofRx r } := by
      rw [step_rxByte_silent (s := { s with pending := [.rxByte b] }) hw hc rfl hstep first, ← hp]
    obtain ⟨out, outs, noBytes, others⟩ := ih (s := { s with rx := mid, out := Output.ofRx r }) hw hc hp hrun later
    refine ⟨out, Output.ofRx r :: outs, noBytes, fun inputs => ?_⟩
    rw [List.map_cons, List.cons_append, State.eagerRun_cons ⟨.inl hc, hp⟩ next, others, Run.withOutputs_append]
    rfl

/-- A request to a waiting block is answered in full before the next input (rules R165, R245). -/
theorem State.eagerRun_request {s : State} (hw : s.cfg.wf) (hc : s.ctl = .waitingForFrame) (hi : s.rx.state = .idle)
    (hp : s.pending = []) (c : Byte) (p : Payload) :
    ∃ (t : State) (outs : List Output), t.ctl = .waitingForFrame ∧ t.rx.state = .idle ∧ t.pending = [] ∧
      t.cfg = s.cfg ∧ t.dt = s.dt ∧ t.board = (s.selected c p).board ∧
      outs.filterMap Output.tx = encode s.cfg s.cfg.myAddr c (s.selected c p).resp ∧
      ∀ inputs, s.eagerRun ((encode s.cfg s.cfg.myAddr c p).map Event.rxByte ++ inputs) =
        Run.withOutputs outs (t.eagerRun inputs) := by
  obtain ⟨init, mid, rs, rx', split, run, silent, last, hi'⟩ :=
    Rx.run_frame_split hw (Rx.ready_of_idle hi) ⟨s.cfg.myAddr, c, p⟩
  rw [Transaction.frame] at split
  obtain ⟨out, outs, noBytes, before⟩ := State.eagerRun_silent_bytes init hw hc hp run silent
  have accepted : step { s with rx := mid, out := out, pending := [.rxByte s.cfg.stop] } = .next (s.requested rx' c p []) :=
    step_rxByte_mine (s := { s with rx := mid, out := out, pending := [.rxByte s.cfg.stop] }) hw hc rfl last
  have answered := State.settle_dispatching (s := s.requested rx' c p []) (r := s.selected c p) hw rfl rfl rfl
  refine ⟨(s.requested rx' c p []).replied c (s.selected c p),
    outs ++ (Output.ofRx (.frameOk ⟨s.cfg.myAddr, c, p⟩) :: Output.ofOutcome (s.selected c p).outcome ::
      (encode s.cfg s.cfg.myAddr c (s.selected c p).resp).map Output.ofTx),
    rfl, hi', rfl, rfl, rfl, rfl, ?_, fun inputs => ?_⟩
  · rw [List.filterMap_append, noBytes, List.nil_append, List.filterMap_cons_none rfl, List.filterMap_cons_none rfl,
      List.filterMap_map]
    exact List.filterMap_some
  · rw [split, List.map_append, List.append_assoc, before, List.map_singleton, List.singleton_append,
      State.eagerRun_cons (s := { s with rx := mid, out := out }) ⟨.inl hc, hp⟩ accepted,
      State.eagerRun_of_settle answered ⟨.inl rfl, rfl⟩, Run.withOutputs_append, Run.withOutputs_append,
      List.append_assoc]
    rfl

/-- What a conversation says depends on the configuration, the table and the board alone (rule R146). -/
theorem State.conversation_congr (requests : List (Byte × Payload)) {s t : State} (hcfg : t.cfg = s.cfg) (hdt : t.dt = s.dt)
    (hboard : t.board = s.board) : t.conversation requests = s.conversation requests := by
  induction requests generalizing s t with
  | nil => exact congrArg (Prod.mk []) hboard
  | cons r rs ih =>
    have same : t.selected r.1 r.2 = s.selected r.1 r.2 := by rw [State.selected, State.selected, hdt, hboard]
    have others := ih (s := { s with board := (s.selected r.1 r.2).board })
      (t := { t with board := (s.selected r.1 r.2).board }) hcfg hdt rfl
    simp only [State.conversation, same, hcfg]
    rw [← others, hcfg]

/-- Requests that follow each other without a gap are answered in order, each on the board the one before left. -/
theorem State.eagerRun_requests (requests : List (Byte × Payload)) {s : State} (hw : s.cfg.wf)
    (hc : s.ctl = .waitingForFrame) (hi : s.rx.state = .idle) (hp : s.pending = []) :
    ∃ t outs, s.eagerRun (requests.flatMap fun r => (encode s.cfg s.cfg.myAddr r.1 r.2).map Event.rxByte) = (.next t, outs) ∧
      t.ctl = .waitingForFrame ∧ (outs.filterMap Output.tx, t.board) = s.conversation requests := by
  induction requests generalizing s with
  | nil => exact ⟨s, [], State.settle_none (State.nextEvent_eq_none.2 ⟨.inl hc, hp⟩), hc, rfl⟩
  | cons r rs ih =>
    obtain ⟨u, outs, hcu, hiu, hpu, hcfg, hdt, hboard, reply, run⟩ := State.eagerRun_request hw hc hi hp r.1 r.2
    obtain ⟨t, outs', others, hct, conversation⟩ := ih (hcfg ▸ hw) hcu hiu hpu
    have onNewBoard : u.conversation rs = State.conversation { s with board := (s.selected r.1 r.2).board } rs :=
      State.conversation_congr rs hcfg hdt hboard
    rw [hcfg] at others
    rw [onNewBoard] at conversation
    refine ⟨t, outs ++ outs', ?_, hct, ?_⟩
    · rw [List.flatMap_cons, run, others]
      rfl
    · rw [State.conversation, ← conversation, List.filterMap_append, reply]

/-- Settles O60: the schedule of `Reaches` with nothing behind it, and the requests one by one. -/
theorem eagerRunSettlesAndAnswers : Obligations.EagerRunSettlesAndAnswers := by
  unfold Obligations.EagerRunSettlesAndAnswers
  constructor
  · intro s inputs hw hi hp
    obtain ⟨t, outs, queue, run, quiet, inOrder, reached⟩ := reaches_eagerRun inputs hw hi hp
    refine ⟨t, outs, queue, run, reached.inv, quiet, inOrder, reached.count, ?_⟩
    have played := reached.plays []
    rw [List.append_nil, ← reached.empty] at played
    exact played
  · intro s requests hw _ hp hc hi
    exact State.eagerRun_requests requests hw hc hi hp

end Sys2Proof.Machine
end
